-- ==== Sys2Proof/Word.lean ====
section
/-! DEFINITION. The words of the engine: bytes, command words, the two word widths (R4, R5, R90), and the
fixed group of eight words that both the hash state (R23) and a set of initial values (R180) are. -/

namespace Sys2Proof

/-- An 8-bit byte, an unsigned integer 0 to 255 (R5). -/
abbrev Byte := BitVec 8

/-- The 16-bit command word `CW` (R70): a number, not a byte sequence; `CW[15]` is its top bit. -/
abbrev CommandWord := BitVec 16

/-- The two word widths (R4, R90): the 32-bit engine and the 64-bit engine. -/
inductive Width where
  | w32
  | w64
deriving DecidableEq, Repr

/-- `w`, the bits of a word (R4). -/
@[reducible] def Width.bits : Width → Nat
  | .w32 => 32
  | .w64 => 64

/-- A word of the selected engine (R90): `w` bits, unsigned. -/
abbrev Word (e : Width) := BitVec e.bits

/-- Eight words in order, `[0]` to `[7]`: the shape of the hash state `H` (R23) and of the initial hash
values (R180), which have exactly eight words in every variant. -/
structure HashWords (α : Type) where
  h0 : α
  h1 : α
  h2 : α
  h3 : α
  h4 : α
  h5 : α
  h6 : α
  h7 : α
deriving DecidableEq, Repr

end Sys2Proof
end

