-- ==== Sys2Proof/Config.lean ====
section
/-! DEFINITION. What is fixed for one machine: the four variants (R2) and the shape of the record each one
selects (R180). The VALUES of the four records stand in Machine/VariantConfig.lean.

R4 leaves no parameter to the implementation, and R8 and R35 say that the only values the spec leaves open
(the registers after reset) are read by no rule; so no free value is declared here. -/

namespace Sys2Proof

/-- The four variants of R2: what the `CFG` register (R22) holds and the operand of `INIT` (R151). -/
inductive Variant where
  | sha224
  | sha256
  | sha384
  | sha512
deriving DecidableEq, Repr

/-- VariantConfig (R180): "an immutable record of {word_width, round_count, round_constants,
initial_hash_values (8 words), output_truncation}". `outWords` is the output truncation, a whole number of
words in every variant (conflict C2). -/
structure VariantConfig where
  width : Width
  rounds : Nat
  roundConstants : List (Word width)
  initialHash : HashWords (Word width)
  outWords : Nat
deriving Repr

end Sys2Proof
end

