-- ==== Sys2Proof/Syntax.lean ====
section
/-! DEFINITION. The commands of the engine (R70): one constructor per row of spec/opcode_table.json. -/

namespace Sys2Proof

/-- One constructor per row of the opcode table. The operands carry their ranges in their types: all four
variants and all 256 bytes are legal (R76). -/
inductive Instr where
  /-- `INIT v` (R72, R151). -/
  | init (v : Variant)
  /-- `APPEND b` (R73, R152). -/
  | append (b : Byte)
  /-- `APPEND0`, the empty append (R74, R153). -/
  | append0
  /-- `FINALIZE` (R75, R154). -/
  | finalize
  /-- The table's row `RESERVED_OP00`: every word with `op = 00`, its other fourteen bits kept (R77 a, R202). -/
  | reservedOp00 (x : BitVec 14)
deriving DecidableEq, Repr

end Sys2Proof
end

