-- ==== Sys2Proof/WellFormed.lean ====
section
/-! DEFINITION. Which terms of `Instr` are commands a program may hold (R70, R77). -/

namespace Sys2Proof

/-- An instruction is well formed when it is one of the four commands of R70. The reserved operation
`op = 00` is in the opcode table but is no command: every word of it is illegal (R71, R77 a). The operand
ranges need no check, since the operand types hold exactly the legal values (R76). -/
def Instr.wellFormed : Instr → Bool
  | .init _ => true
  | .append _ => true
  | .append0 => true
  | .finalize => true
  | .reservedOp00 _ => false

/-- A program (R80, "a finite list of such lines") is well formed when every line of it is a command. -/
def programWellFormed (p : List Instr) : Bool :=
  p.all Instr.wellFormed

end Sys2Proof
end

