-- ==== Sys2Proof/Decode.lean ====
section
/-! DEFINITION. The decoder of R78, total on the 65536 command words, and after it the encoder. Decoding
depends on no state (R78). -/

namespace Sys2Proof

/-- Why a word with `op ≠ 00` is illegal: the cases (b) to (e) of R77. Case (a), `op = 00`, is the
constructor `Instr.reservedOp00`. -/
inductive IllegalReason where
  /-- R77 (b): `rsv ≠ 00000`. -/
  | reservedBits
  /-- R77 (c): `op = 01` and (`V = 1` or `imm8[7:2] ≠ 0`). -/
  | initOperand
  /-- R77 (d): `op = 10`, `V = 0` and `imm8 ≠ 0`. -/
  | appendOperand
  /-- R77 (e): `op = 11` and (`V = 1` or `imm8 ≠ 0`). -/
  | finalizeOperand
deriving DecidableEq, Repr

/-- What the decoder answers: an instruction of the table, or the case of R77 that rejects the word. -/
inductive Decoded where
  | instr (i : Instr)
  | illegal (r : IllegalReason)
deriving DecidableEq, Repr

/-- `op = CW[15:14]` (R71). -/
def CommandWord.op (cw : CommandWord) : BitVec 2 := cw.extractLsb' 14 2

/-- `rsv = CW[13:9]` (R71). -/
def CommandWord.rsv (cw : CommandWord) : BitVec 5 := cw.extractLsb' 9 5

/-- `V = CW[8]` (R71). -/
def CommandWord.valid (cw : CommandWord) : BitVec 1 := cw.extractLsb' 8 1

/-- `imm8 = CW[7:0]` (R71). -/
def CommandWord.imm8 (cw : CommandWord) : Byte := cw.extractLsb' 0 8

/-- The numbering of the variants (R22, R76): 0 = SHA224, 1 = SHA256, 2 = SHA384, 3 = SHA512. -/
def Variant.ofCode (c : BitVec 2) : Variant :=
  if c = 0#2 then .sha224
  else if c = 1#2 then .sha256
  else if c = 2#2 then .sha384
  else .sha512

/-- The 2-bit code of a variant (R22): bit 1 is the engine, bit 0 is "not truncated". -/
def Variant.code : Variant → BitVec 2
  | .sha224 => 0#2
  | .sha256 => 1#2
  | .sha384 => 2#2
  | .sha512 => 3#2

/-- The decoder, R78. A word with `op = 00` is the table's row RESERVED_OP00 whatever its other bits are
(its mask is 0xC000); every other illegal word is rejected by the case of R77 it falls under. -/
def decode (cw : CommandWord) : Decoded :=
  if cw.op = 0b00#2 then .instr (.reservedOp00 (cw.extractLsb' 0 14))
  else if cw.rsv ≠ 0#5 then .illegal .reservedBits
  else if cw.op = 0b01#2 then
    if cw.valid = 0#1 ∧ cw.imm8.extractLsb' 2 6 = 0#6 then
      .instr (.init (Variant.ofCode (cw.imm8.extractLsb' 0 2)))
    else .illegal .initOperand
  else if cw.op = 0b10#2 then
    if cw.valid = 1#1 then .instr (.append cw.imm8)
    else if cw.imm8 = 0#8 then .instr .append0
    else .illegal .appendOperand
  else if cw.valid = 0#1 ∧ cw.imm8 = 0#8 then .instr .finalize
  else .illegal .finalizeOperand

/-- The encoder, R78: the inverse of the decoder on the formats of R72 to R75 (and R77 a for the reserved row). -/
def encode : Instr → CommandWord
  | .init v => 0x4000#16 + v.code.setWidth 16
  | .append b => 0x8100#16 + b.setWidth 16
  | .append0 => 0x8000#16
  | .finalize => 0xC000#16
  | .reservedOp00 x => x.setWidth 16

/-- The mask of the instruction's row in spec/opcode_table.json (R72 to R75, R77 a). -/
def Instr.rowMask : Instr → CommandWord
  | .init _ => 0xFFFC#16
  | .append _ => 0xFF00#16
  | .append0 => 0xFFFF#16
  | .finalize => 0xFFFF#16
  | .reservedOp00 _ => 0xC000#16

/-- The match of the instruction's row in spec/opcode_table.json (R72 to R75, R77 a). -/
def Instr.rowMatch : Instr → CommandWord
  | .init _ => 0x4000#16
  | .append _ => 0x8100#16
  | .append0 => 0x8000#16
  | .finalize => 0xC000#16
  | .reservedOp00 _ => 0x0000#16

/-- The legal words of R77: those that decode to one of the four commands. -/
def legal (cw : CommandWord) : Bool :=
  match decode cw with
  | .instr i => i.wellFormed
  | .illegal _ => false

/-- The host's view of the decoder. `w` holds the instruction's `nbits` bits, bit 0 the least significant
bit of its one 16-bit word; the bits above `nbits` are 0. A command word has no byte order (R70), so its
number is given to the decoder as it stands. A number that does not fit one word is no instruction (log entry 18). -/
def decodeTableWord (nbits w : Nat) : Option Instr :=
  if w % 2 ^ nbits < 2 ^ 16 then
    match decode (BitVec.ofNat 16 (w % 2 ^ nbits)) with
    | .instr i => some i
    | .illegal _ => none
  else none

end Sys2Proof
end

