-- ==== Sys2Proof/Machine/State.lean ====
section
/-! DEFINITION. The state of one engine (R20): `PHASE`, `CFG`, `H[0..7]`, `BUF`, `BUFLEN`, `LEN`, at the
physical widths of R34, and the two wires to the host (R9, R70, R79): the commands it presents and the
response it reads. Plain data throughout. -/

namespace Sys2Proof.Machine

open Sys2Proof

/-- `PHASE` (R21). The 2-bit codes are in Flags.lean; the value 3 is never taken. -/
inductive Phase where
  | idle
  | accepting
  | finalized
deriving DecidableEq, Repr

/-- The response status (R79, R200). The code 3 is never produced. -/
inductive Status where
  | ok
  | invalidState
  | illegalCommand
deriving DecidableEq, Repr

/-- A response (R79): a status, and the digest bytes on a successful `FINALIZE`. -/
structure Response where
  status : Status
  data : List Byte
deriving DecidableEq, Repr

/-- What the outside world can do to the engine. -/
inductive HostEvent where
  /-- The host presents one command word (R70). -/
  | command (cw : CommandWord)
  /-- The reset input is asserted between two commands (R230). -/
  | reset
  /-- Two command words are presented at the same time (R233, U5): the spec gives this no meaning. -/
  | commandsTogether (first second : CommandWord)
  /-- Reset is asserted while a command executes (R230, U11): the spec says nothing of it. -/
  | resetDuringCommand (cw : CommandWord)
deriving DecidableEq, Repr

/-- The byte cells of `BUF` (R24, R50): a list of address and byte pairs in canonical form, addresses
strictly rising and no entry equal to what an unlisted cell reads as. -/
abbrev Memory := List Host.Cell

/-- The state of the engine. `h`, `len`, `bufLen` and `buf` have the physical widths of R34; the logical
widths of the selected variant are what the accessors of Operands.lean read and write. -/
structure State where
  /-- `PHASE`, R21. -/
  phase : Phase
  /-- `CFG`, R22. -/
  cfg : Variant
  /-- `H[0]` to `H[7]`, R23, 64 bits each (R34). -/
  h : HashWords (BitVec 64)
  /-- `BUF`, R24, 128 byte cells (R34). -/
  buf : Memory
  /-- `BUFLEN`, R24, 7 bits (R34). -/
  bufLen : BitVec 7
  /-- `LEN`, R25, 128 bits (R34). -/
  len : BitVec 128
  /-- The host's side: what it presents, oldest first (R57, R80). Not a register of the engine. -/
  input : List HostEvent
  /-- The response the host reads: that of the last command (R79); none before the first one. Not a register
  of the engine. -/
  response : Option Response
deriving DecidableEq, Repr

/-- Why the engine stops. No command of the engine stops it: its errors are responses (R206). -/
inductive Fault where
  /-- Raised by the step when reset is asserted while a command executes: "a command is one step and reset
  comes between steps; a model says nothing of hardware that is reset mid-command" (R230, U11). Safe: the
  hardware goes on, the model makes no claim. -/
  | resetMidCommand
deriving DecidableEq, Repr

/-- Why the model gives no next state. -/
inductive Refusal where
  /-- Raised by an arm of exec whose instruction has no meaning yet. Safe. No arm raises it. -/
  | notModelled (mnemonic : String)
  /-- Raised by the step when two commands are presented at once: "refuse: the model has no move for it"
  (R233, U5). Safe: no claim is made about such a presentation. -/
  | simultaneousCommands
deriving DecidableEq, Repr

/-- The engine right after reset (R33): `PHASE = Idle`. The spec leaves every other register unspecified; the
values here are the model's own (DESIGN CHOICE, unsafe, log entry 1: zero everywhere, no buffer cell
listed). Nothing is presented and nothing has been answered yet. -/
def State.reset : State where
  phase := .idle
  cfg := .sha224
  h := ⟨0, 0, 0, 0, 0, 0, 0, 0⟩
  buf := []
  bufLen := 0
  len := 0
  input := []
  response := none

end Sys2Proof.Machine
end

