-- ==== Sys2Proof/Machine/WordArithmetic.lean ====
section
/-! DEFINITION. WordArithmetic (R90 to R98): the word primitives, generic in the word width, and the byte-order
helpers `BE` and `be` (R6), with the plain list views of eight words. None has state, none can fail (R97), and none branches on data (R98). -/

namespace Sys2Proof

/-- The eight words in order, `[0]` first. -/
def HashWords.toList {α : Type} (x : HashWords α) : List α :=
  [x.h0, x.h1, x.h2, x.h3, x.h4, x.h5, x.h6, x.h7]

/-- One function applied to each of the eight words. -/
def HashWords.map {α β : Type} (f : α → β) (x : HashWords α) : HashWords β :=
  ⟨f x.h0, f x.h1, f x.h2, f x.h3, f x.h4, f x.h5, f x.h6, f x.h7⟩

end Sys2Proof

namespace Sys2Proof.Machine

open Sys2Proof

/-- `ROTR(x, n)`, R91. The amount must be below the width (R96, U3): the caller owes `n < w`, and each amount
of the algorithm is a constant for which `decide` pays. -/
def rotr {w : Nat} (x : BitVec w) (n : Nat) (_below : n < w := by decide) : BitVec w :=
  if n = 0 then x else (x >>> n) ||| (x <<< (w - n))

/-- `SHR(x, n)`, R92: logical, zeros enter at the top. The amount is below the width (R96). -/
def shr {w : Nat} (x : BitVec w) (n : Nat) (_below : n < w := by decide) : BitVec w :=
  x >>> n

/-- `ADD(x1, ..., xk)`, R93: the sum of the operands modulo `2^w`; the carry out is discarded. -/
def addWords {w : Nat} (xs : List (BitVec w)) : BitVec w :=
  BitVec.ofNat w (xs.map BitVec.toNat).sum

/-- `XOR(x, y, z)`, R94. -/
def xor3 {w : Nat} (x y z : BitVec w) : BitVec w :=
  (x ^^^ y) ^^^ z

/-- `BE(n, v)`, R6: the `n`-byte big-endian serialization of `v`, most significant byte first. -/
def bigEndian (n v : Nat) : List Byte :=
  (List.range n).map fun j => BitVec.ofNat 8 (v >>> (8 * (n - 1 - j)))

/-- `be(s)`, R6: the unsigned integer a byte sequence stands for, its first byte the most significant. -/
def fromBigEndian (s : List Byte) : Nat :=
  s.foldl (fun v b => 256 * v + b.toNat) 0

/-- The subsequence `s[i..j)` of R6. -/
def slice {α : Type} (s : List α) (i j : Nat) : List α :=
  (s.drop i).take (j - i)

end Sys2Proof.Machine
end

