-- ==== Sys2Proof/Machine/Ops.lean ====
section
/-! DEFINITION. The named operations over the state: the byte cells of BUF (R50, R52), one update per field, and
the two ways a command ends: a success response and an error (R79, R206). -/

namespace Sys2Proof.Machine

open Sys2Proof

/-- The byte cells of BUF, `BUF[0]` to `BUF[127]` (R34). -/
def bufCells : Nat := 128

/-- What a cell nothing has written reads as. The spec gives BUF no contents (R33, U6); this value is the model's
(DESIGN CHOICE, unsafe, log entry 2). No command reads such a cell. -/
def Memory.unlisted : Byte := 0

/-- The byte at a cell. -/
def Memory.read : Memory → Nat → Byte
  | [], _ => Memory.unlisted
  | (a, b) :: rest, i => if a = i then b else Memory.read rest i

/-- The cells after the byte `b` is stored in cell `i`, in canonical form. -/
def Memory.write : Memory → Nat → Byte → Memory
  | [], i, b => if b = Memory.unlisted then [] else [(i, b)]
  | (a, c) :: rest, i, b =>
    if i < a then
      if b = Memory.unlisted then (a, c) :: rest else (i, b) :: (a, c) :: rest
    else if i = a then
      if b = Memory.unlisted then rest else (i, b) :: rest
    else (a, c) :: Memory.write rest i b

/-- Addresses strictly rising from at least `low`, below the end of BUF, and no entry equal to what an unlisted
cell reads as. -/
def Memory.wfFrom : Nat → Memory → Bool
  | _, [] => true
  | low, (a, b) :: rest =>
    decide (low ≤ a) && decide (a < bufCells) && decide (b ≠ Memory.unlisted) && Memory.wfFrom (a + 1) rest

/-- The canonical form of the cells: equal memories are equal lists. -/
def Memory.wf (m : Memory) : Bool :=
  Memory.wfFrom 0 m

/-- `PHASE <- p`. -/
def State.setPhase (s : State) (p : Phase) : State := { s with phase := p }

/-- `CFG <- v`. -/
def State.setCfg (s : State) (v : Variant) : State := { s with cfg := v }

/-- `H[0..7] <- h`, all eight at once (R130). -/
def State.setH (s : State) (h : HashWords (BitVec 64)) : State := { s with h := h }

/-- The cells of BUF replaced. -/
def State.setBuf (s : State) (m : Memory) : State := { s with buf := m }

/-- `BUFLEN <- n`. -/
def State.setBufLen (s : State) (n : BitVec 7) : State := { s with bufLen := n }

/-- `LEN <- n`. -/
def State.setLen (s : State) (n : BitVec 128) : State := { s with len := n }

/-- What the host still has to present. -/
def State.setInput (s : State) (evs : List HostEvent) : State := { s with input := evs }

/-- The response the host reads. -/
def State.setResponse (s : State) (r : Option Response) : State := { s with response := r }

/-- `MemWrite(i, 1, b)`, R52. -/
def State.memWrite (s : State) (i : Nat) (b : Byte) : State :=
  s.setBuf (Memory.write s.buf i b)

/-- The cells `BUF[i..i+n)` in order. -/
def State.cells (s : State) (i n : Nat) : List Byte :=
  (List.range n).map fun j => Memory.read s.buf (i + j)

/-- `MemRead(i, n)`, R52: the cells `BUF[i..i+n)` read as a big-endian unsigned integer. -/
def State.memRead (s : State) (i n : Nat) : Nat :=
  fromBigEndian (s.cells i n)

/-- `respond OK(d)`, R79: the command ends with the success response, carrying `d`. -/
def State.respondOk (s : State) (d : List Byte) : State :=
  s.setResponse (some ⟨.ok, d⟩)

/-- `raise E`, R206, the one way every error is taken: the command ends at once with the response of code `E`
and no data. No state element changes, nothing is saved, no handler is entered, and there is nothing to return
from (R207). -/
def State.raiseError (s : State) (e : Status) : State :=
  s.setResponse (some ⟨e, []⟩)

end Sys2Proof.Machine
end

