-- ==== Sys2Proof/Machine/Reserved.lean ====
section
/-! DEFINITION. The illegal command words (R77, R202): the table's reserved row, and the words the decoder
rejects. -/

namespace Sys2Proof.Machine

open Sys2Proof

/-- What an illegal command word does in any phase, R202: `raise IllegalCommand`. -/
def State.illegalCommand (s : State) : State :=
  s.raiseError .illegalCommand

/-- RESERVED_OP00, R77 (a) and R202: whatever its other bits are, the word is illegal. -/
def execReservedOp00 (_x : BitVec 14) (s : State) : Host.Outcome State Fault Refusal :=
  .next s.illegalCommand

end Sys2Proof.Machine
end

