-- ==== Sys2Proof/Machine/VariantConfig.lean ====
section
/-! DEFINITION. VariantConfig: the four parameter records and their constants (R4, R180 to R190). The constants
are data of the step function, not state: no command and no reset writes them (R28, R190). -/

namespace Sys2Proof.Machine

open Sys2Proof

/-- Entry `i` of a table row of `columns` words of `w` bits. A row is one hexadecimal numeral whose digit groups are
its cells from left to right, as spec/45_variant_config.md prints them: the leftmost cell is the most significant. -/
def tableCell (w columns row i : Nat) : BitVec w :=
  BitVec.ofNat w (row >>> (w * (columns - 1 - i)))

/-- The words of a table whose row label plus column is the index of a word (R186, R187). -/
def tableWords (w columns : Nat) (rows : List Nat) : List (BitVec w) :=
  rows.flatMap fun row => (List.range columns).map (tableCell w columns row)

/-- Eight initial hash values, written as two rows of four: values 0 to 3, then 4 to 7 (R182 to R185). -/
def tableHash (w low high : Nat) : HashWords (BitVec w) where
  h0 := tableCell w 4 low 0
  h1 := tableCell w 4 low 1
  h2 := tableCell w 4 low 2
  h3 := tableCell w 4 low 3
  h4 := tableCell w 4 high 0
  h5 := tableCell w 4 high 1
  h6 := tableCell w 4 high 2
  h7 := tableCell w 4 high 3

/-- The 64 round constants of the 32-bit engine (R186), eight to a row. -/
def roundConstants32 : List (BitVec 32) :=
  tableWords 32 8
  [0x428a2f98_71374491_b5c0fbcf_e9b5dba5_3956c25b_59f111f1_923f82a4_ab1c5ed5,
   0xd807aa98_12835b01_243185be_550c7dc3_72be5d74_80deb1fe_9bdc06a7_c19bf174,
   0xe49b69c1_efbe4786_0fc19dc6_240ca1cc_2de92c6f_4a7484aa_5cb0a9dc_76f988da,
   0x983e5152_a831c66d_b00327c8_bf597fc7_c6e00bf3_d5a79147_06ca6351_14292967,
   0x27b70a85_2e1b2138_4d2c6dfc_53380d13_650a7354_766a0abb_81c2c92e_92722c85,
   0xa2bfe8a1_a81a664b_c24b8b70_c76c51a3_d192e819_d6990624_f40e3585_106aa070,
   0x19a4c116_1e376c08_2748774c_34b0bcb5_391c0cb3_4ed8aa4a_5b9cca4f_682e6ff3,
   0x748f82ee_78a5636f_84c87814_8cc70208_90befffa_a4506ceb_bef9a3f7_c67178f2]

/-- The 80 round constants of the 64-bit engine (R187), four to a row. -/
def roundConstants64 : List (BitVec 64) :=
  tableWords 64 4
  [0x428a2f98d728ae22_7137449123ef65cd_b5c0fbcfec4d3b2f_e9b5dba58189dbbc,
   0x3956c25bf348b538_59f111f1b605d019_923f82a4af194f9b_ab1c5ed5da6d8118,
   0xd807aa98a3030242_12835b0145706fbe_243185be4ee4b28c_550c7dc3d5ffb4e2,
   0x72be5d74f27b896f_80deb1fe3b1696b1_9bdc06a725c71235_c19bf174cf692694,
   0xe49b69c19ef14ad2_efbe4786384f25e3_0fc19dc68b8cd5b5_240ca1cc77ac9c65,
   0x2de92c6f592b0275_4a7484aa6ea6e483_5cb0a9dcbd41fbd4_76f988da831153b5,
   0x983e5152ee66dfab_a831c66d2db43210_b00327c898fb213f_bf597fc7beef0ee4,
   0xc6e00bf33da88fc2_d5a79147930aa725_06ca6351e003826f_142929670a0e6e70,
   0x27b70a8546d22ffc_2e1b21385c26c926_4d2c6dfc5ac42aed_53380d139d95b3df,
   0x650a73548baf63de_766a0abb3c77b2a8_81c2c92e47edaee6_92722c851482353b,
   0xa2bfe8a14cf10364_a81a664bbc423001_c24b8b70d0f89791_c76c51a30654be30,
   0xd192e819d6ef5218_d69906245565a910_f40e35855771202a_106aa07032bbd1b8,
   0x19a4c116b8d2d0c8_1e376c085141ab53_2748774cdf8eeb99_34b0bcb5e19b48a8,
   0x391c0cb3c5c95a63_4ed8aa4ae3418acb_5b9cca4f7763e373_682e6ff3d6b2b8a3,
   0x748f82ee5defb2fc_78a5636f43172f60_84c87814a1f0ab72_8cc702081a6439ec,
   0x90befffa23631e28_a4506cebde82bde9_bef9a3f7b2c67915_c67178f2e372532b,
   0xca273eceea26619c_d186b8c721c0c207_eada7dd6cde0eb1e_f57d4f7fee6ed178,
   0x06f067aa72176fba_0a637dc5a2c898a6_113f9804bef90dae_1b710b35131c471b,
   0x28db77f523047d84_32caab7b40c72493_3c9ebe0a15c9bebc_431d67c49c100d4c,
   0x4cc5d4becb3e42b6_597f299cfc657e2a_5fcb6fab3ad6faec_6c44198c4a475817]

/-- R182: the initial hash values of SHA224. -/
def initialHash224 : HashWords (BitVec 32) :=
  tableHash 32
    0xc1059ed8_367cd507_3070dd17_f70e5939
    0xffc00b31_68581511_64f98fa7_befa4fa4

/-- R183: the initial hash values of SHA256. -/
def initialHash256 : HashWords (BitVec 32) :=
  tableHash 32
    0x6a09e667_bb67ae85_3c6ef372_a54ff53a
    0x510e527f_9b05688c_1f83d9ab_5be0cd19

/-- R184: the initial hash values of SHA384. -/
def initialHash384 : HashWords (BitVec 64) :=
  tableHash 64
    0xcbbb9d5dc1059ed8_629a292a367cd507_9159015a3070dd17_152fecd8f70e5939
    0x67332667ffc00b31_8eb44a8768581511_db0c2e0d64f98fa7_47b5481dbefa4fa4

/-- R185: the initial hash values of SHA512. -/
def initialHash512 : HashWords (BitVec 64) :=
  tableHash 64
    0x6a09e667f3bcc908_bb67ae8584caa73b_3c6ef372fe94f82b_a54ff53a5f1d36f1
    0x510e527fade682d1_9b05688c2b3e6c1f_1f83d9abfb41bd6b_5be0cd19137e2179

/-- The record each variant selects (R4, R180, R181, R188). -/
def config : Variant → VariantConfig
  | .sha224 => ⟨.w32, 64, roundConstants32, initialHash224, 7⟩
  | .sha256 => ⟨.w32, 64, roundConstants32, initialHash256, 8⟩
  | .sha384 => ⟨.w64, 80, roundConstants64, initialHash384, 6⟩
  | .sha512 => ⟨.w64, 80, roundConstants64, initialHash512, 8⟩

/-- The bytes of one word, `w/8`. -/
def wordBytes (e : Width) : Nat := e.bits / 8

/-- `block_size = 16 * w / 8`, the bytes of one block (R4). -/
def blockSize (e : Width) : Nat := 16 * e.bits / 8

/-- `lfs`, the bytes of the length field (R4): 8 or 16. -/
def lengthFieldSize : Width → Nat
  | .w32 => 8
  | .w64 => 16

/-- `len_bits`, the width of the length counter (R4): `8 * lfs`. -/
def lengthBits (e : Width) : Nat := 8 * lengthFieldSize e

/-- `digest_len`, the bytes of the digest (R4): `out_words * w / 8`. -/
def digestLength (c : VariantConfig) : Nat := c.outWords * c.width.bits / 8

end Sys2Proof.Machine
end

