-- ==== Sys2Proof/Machine/MessageSchedule.lean ====
section
/-! DEFINITION. MessageSchedule (R110 to R117): one block expanded into the `rounds` words `W[0..rounds-1]`. A
local value of one block compression, never state (R26, R116). -/

namespace Sys2Proof.Machine

open Sys2Proof

/-- `SSIG0`, R112. -/
def ssig0 : (e : Width) → Word e → Word e
  | .w32, x => xor3 (rotr x 7) (rotr x 18) (shr x 3)
  | .w64, x => xor3 (rotr x 1) (rotr x 8) (shr x 7)

/-- `SSIG1`, R113. -/
def ssig1 : (e : Width) → Word e → Word e
  | .w32, x => xor3 (rotr x 17) (rotr x 19) (shr x 10)
  | .w64, x => xor3 (rotr x 19) (rotr x 61) (shr x 6)

/-- `W[t]` of the words written so far; the recurrence reads only words already written (R56, R114). -/
def wordAt {e : Width} (ws : List (Word e)) (t : Nat) : Word e :=
  ws.getD t 0

/-- The first sixteen words, R111: the big-endian interpretation of the block's sixteen sub-chunks. -/
def blockWords (e : Width) (block : List Byte) : List (Word e) :=
  (List.range 16).map fun t =>
    BitVec.ofNat e.bits (fromBigEndian (slice block (wordBytes e * t) (wordBytes e * (t + 1))))

/-- The word after the words `W[0..t)`, R114. -/
def nextWord {e : Width} (ws : List (Word e)) : Word e :=
  let t := ws.length
  addWords [ssig1 e (wordAt ws (t - 2)), wordAt ws (t - 7), ssig0 e (wordAt ws (t - 15)), wordAt ws (t - 16)]

/-- The recurrence of R114 applied `n` times, in increasing `t`. -/
def extendSchedule {e : Width} : Nat → List (Word e) → List (Word e)
  | 0, ws => ws
  | n + 1, ws => extendSchedule n (ws ++ [nextWord ws])

/-- `Schedule(B)`, R115. -/
def schedule (c : VariantConfig) (block : List Byte) : List (Word c.width) :=
  extendSchedule (c.rounds - 16) (blockWords c.width block)

end Sys2Proof.Machine
end

