-- ==== Sys2Proof/Machine/CompressionCore.lean ====
section
/-! DEFINITION. CompressionCore (R120 to R133): the block compression, one routine for both word widths (R90,
R181). It is total (R132) and its control does not depend on data (R131). -/

namespace Sys2Proof.Machine

open Sys2Proof

/-- The eight working variables, R27: local to one block compression, never state. -/
structure Working (width : Width) where
  a : Word width
  b : Word width
  c : Word width
  d : Word width
  e : Word width
  f : Word width
  g : Word width
  h : Word width
deriving DecidableEq, Repr

/-- `Ch`, R121: a bitwise selection, no branch. -/
def ch {w : Nat} (x y z : BitVec w) : BitVec w :=
  (x &&& y) ^^^ (~~~x &&& z)

/-- `Maj`, R122. -/
def maj {w : Nat} (x y z : BitVec w) : BitVec w :=
  xor3 (x &&& y) (x &&& z) (y &&& z)

/-- `BSIG0`, R123. -/
def bsig0 : (e : Width) → Word e → Word e
  | .w32, x => xor3 (rotr x 2) (rotr x 13) (rotr x 22)
  | .w64, x => xor3 (rotr x 28) (rotr x 34) (rotr x 39)

/-- `BSIG1`, R124. -/
def bsig1 : (e : Width) → Word e → Word e
  | .w32, x => xor3 (rotr x 6) (rotr x 11) (rotr x 25)
  | .w64, x => xor3 (rotr x 14) (rotr x 18) (rotr x 41)

/-- The working variables at the start of a compression, R125. -/
def loadWorking {e : Width} (hash : HashWords (Word e)) : Working e :=
  ⟨hash.h0, hash.h1, hash.h2, hash.h3, hash.h4, hash.h5, hash.h6, hash.h7⟩

/-- `T1` of a round, R126. -/
def roundT1 {e : Width} (v : Working e) (k w : Word e) : Word e :=
  addWords [v.h, bsig1 e v.e, ch v.e v.f v.g, k, w]

/-- `T2` of a round, R126. -/
def roundT2 {e : Width} (v : Working e) : Word e :=
  addWords [bsig0 e v.a, maj v.a v.b v.c]

/-- `Round(t)` with `K[t] = k` and `W[t] = w`, R126: all eight assignments take effect together. -/
def roundStep {e : Width} (v : Working e) (k w : Word e) : Working e where
  a := addWords [roundT1 v k w, roundT2 v]
  b := v.a
  c := v.b
  d := v.c
  e := addWords [v.d, roundT1 v k w]
  f := v.e
  g := v.f
  h := v.g

/-- The rounds in increasing order, round `t` with `K[t]` and `W[t]` (R127). -/
def runRounds {e : Width} (v : Working e) (kw : List (Word e × Word e)) : Working e :=
  kw.foldl (fun v p => roundStep v p.1 p.2) v

/-- The feed-forward, R128: the working variables added into the hash words, component by component. -/
def feedForward {e : Width} (hash : HashWords (Word e)) (v : Working e) : HashWords (Word e) where
  h0 := addWords [hash.h0, v.a]
  h1 := addWords [hash.h1, v.b]
  h2 := addWords [hash.h2, v.c]
  h3 := addWords [hash.h3, v.d]
  h4 := addWords [hash.h4, v.e]
  h5 := addWords [hash.h5, v.f]
  h6 := addWords [hash.h6, v.g]
  h7 := addWords [hash.h7, v.h]

/-- `Compress(H, B)`, R129. -/
def compress (c : VariantConfig) (hash : HashWords (Word c.width)) (block : List Byte) :
    HashWords (Word c.width) :=
  feedForward hash (runRounds (loadWorking hash) (c.roundConstants.zip (schedule c block)))

end Sys2Proof.Machine
end

