-- ==== Sys2Proof/Machine/Operands.lean ====
section
/-! DEFINITION. The registers at the logical widths of the selected variant (R4, R34): only the low `w` bits of
each `H[i]`, the low `len_bits` bits of LEN and the low bits of BUFLEN that count below `block_size` take part
in a read, and a write leaves the rest zero. -/

namespace Sys2Proof.Machine

open Sys2Proof

/-- The parameter record the variant register selects (R22, R180). -/
def State.config (s : State) : VariantConfig := Machine.config s.cfg

/-- The word width the variant register selects. -/
def State.width (s : State) : Width := s.config.width

/-- The low `w` bits of a 64-bit register (R34). -/
def narrowWord (e : Width) (x : BitVec 64) : Word e := x.setWidth e.bits

/-- `zext_64` of a word (R7, R34): zeros above. -/
def widenWord {e : Width} (x : Word e) : BitVec 64 := x.setWidth 64

/-- `H[0..7]` as words of the given width. -/
def State.hash (s : State) (e : Width) : HashWords (Word e) := s.h.map (narrowWord e)

/-- `H[0..7] <- x`. -/
def State.setHash (s : State) {e : Width} (x : HashWords (Word e)) : State := s.setH (x.map widenWord)

/-- `BUFLEN`, the fill level: always below `block_size`, since only that many low bits take part (R24, R34). -/
def State.fill (s : State) : Nat := s.bufLen.toNat % blockSize s.width

/-- `BUFLEN <- n`. -/
def State.setFill (s : State) (n : Nat) : State := s.setBufLen (BitVec.ofNat 7 n)

/-- `LEN`, at its logical width (R25, R34). -/
def State.length (s : State) : Nat := s.len.toNat % 2 ^ lengthBits s.width

/-- `LEN <- n`. -/
def State.setLength (s : State) (n : Nat) : State := s.setLen (BitVec.ofNat 128 n)

/-- `BUF[0..BUFLEN)`, the meaningful cells (R24). -/
def State.tail (s : State) : List Byte := s.cells 0 s.fill

/-- `BUF[0..block_size)`, the full block (R152). -/
def State.block (s : State) : List Byte := s.cells 0 (blockSize s.width)

/-- `H <- Compress(H, B)`, R129, R130. -/
def State.compressBlock (s : State) (block : List Byte) : State :=
  s.setHash (compress s.config (s.hash s.config.width) block)

end Sys2Proof.Machine
end

