-- ==== Sys2Proof/Machine/DigestOutput.lean ====
section
/-! DEFINITION. The digest bytes, R155: serialization of the leading hash words and truncation (R188). -/

namespace Sys2Proof.Machine

open Sys2Proof

/-- `Digest(H)`, R155: `BE(w/8, H[0]) || ... || BE(w/8, H[out_words - 1])`. -/
def digest (c : VariantConfig) (hash : HashWords (Word c.width)) : List Byte :=
  (hash.toList.take c.outWords).flatMap fun x => bigEndian (wordBytes c.width) x.toNat

/-- The digest as a function of the state, `H` and `CFG` (R29). -/
def State.digest (s : State) : List Byte :=
  Machine.digest s.config (s.hash s.config.width)

end Sys2Proof.Machine
end

