-- ==== Sys2Proof/Machine/Flags.lean ====
section
/-! DEFINITION. The status of the engine. It has no condition codes, no carry and no sticky error flag (R31): the
one status value is PHASE, and the outputs are functions of the state (R29). -/

namespace Sys2Proof.Machine

open Sys2Proof

/-- The code of `PHASE`, R21; 3 is never taken. -/
def Phase.code : Phase → BitVec 2
  | .idle => 0#2
  | .accepting => 1#2
  | .finalized => 2#2

/-- The code of a response status, R79, which is also the error code of R200; 3 is never produced. -/
def Status.code : Status → BitVec 2
  | .ok => 0#2
  | .invalidState => 1#2
  | .illegalCommand => 2#2

/-- The output `digest_valid = (PHASE == Finalized)`, R29. -/
def State.digestValid (s : State) : Bool := decide (s.phase = .finalized)

/-- The read-only output `digest`, R29. While `digest_valid` is 0 its value is unspecified and the host has no
read of it (U7). -/
def State.digestOutput (s : State) : Option (List Byte) :=
  if s.digestValid then some s.digest else none

end Sys2Proof.Machine
end

