-- ==== Sys2Proof/Machine/PaddingEncoder.lean ====
section
/-! DEFINITION. PaddingEncoder (R140 to R148): the marker, the zero fill and the big-endian length field that
complete the last one or two blocks. Pure; it runs inside FINALIZE only. -/

namespace Sys2Proof.Machine

open Sys2Proof

/-- The number `k` of zero bytes after the marker when `n` bytes stand before it, R142:
`(block_size - lfs - 1 - n) mod block_size`, the mathematical remainder, written without a subtraction that
could fall below zero. -/
def zeroFill (e : Width) (n : Nat) : Nat :=
  (2 * blockSize e - lengthFieldSize e - 1 - n % blockSize e) % blockSize e

/-- `T || 0x80 || 0x00^k || BE(lfs, L)`, R141 to R144. -/
def paddedMessage (e : Width) (bytes : List Byte) (len : Nat) : List Byte :=
  bytes ++ [0x80#8] ++ List.replicate (zeroFill e bytes.length) 0x00#8 ++ bigEndian (lengthFieldSize e) len

/-- The consecutive blocks of a byte sequence whose length is a multiple of `block_size`. -/
def blocksOf (e : Width) (bytes : List Byte) : List (List Byte) :=
  (List.range (bytes.length / blockSize e)).map fun j =>
    slice bytes (j * blockSize e) ((j + 1) * blockSize e)

/-- `Pad(T, L)`, R147: the one or two blocks, first block first. -/
def pad (e : Width) (tail : List Byte) (len : Nat) : List (List Byte) :=
  blocksOf e (paddedMessage e tail len)

end Sys2Proof.Machine
end

