-- ==== Sys2Proof/Machine/StreamingDigest.lean ====
section
/-! DEFINITION. StreamingDigest (R150 to R166): the meanings of the four commands. Each is one indivisible step
(R7) that always answers a next state; an error is a response, not a stop (R206). -/

namespace Sys2Proof.Machine

open Sys2Proof

/-- The precondition of `APPEND b`, `APPEND0` and `FINALIZE`, tested before any effect (R201): in `Accepting` the
command runs, in `Idle` and `Finalized` it raises InvalidState. -/
def whenAccepting (s : State) (effect : State → State) : State :=
  if s.phase = .accepting then effect s else s.raiseError .invalidState

/-- A fresh digest object of variant `v`, R151. The cells of BUF are not cleared. -/
def State.newObject (s : State) (v : Variant) : State :=
  ((((s.setCfg v).setHash (Machine.config v).initialHash).setFill 0).setLength 0).setPhase .accepting

/-- The effect of one accepted byte, R152: the store, the counter (which wraps, R160), and the drain when the
byte fills the block. -/
def State.acceptByte (s : State) (b : Byte) : State :=
  let stored := (s.memWrite s.fill b).setLength ((s.length + 8) % 2 ^ lengthBits s.width)
  if s.fill + 1 = blockSize s.width then
    (stored.compressBlock stored.block).setFill 0
  else stored.setFill (s.fill + 1)

/-- The final blocks compressed, R154: one or two, in order. -/
def State.compressPadding (s : State) : State :=
  (pad s.width s.tail s.length).foldl State.compressBlock s

/-- The effect of FINALIZE on the state, R154. LEN and the cells of BUF stay as they are. -/
def State.finish (s : State) : State :=
  (s.compressPadding.setFill 0).setPhase .finalized

/-- `INIT v`, R151: valid in every phase. -/
def execInit (v : Variant) (s : State) : Host.Outcome State Fault Refusal :=
  .next ((s.newObject v).respondOk [])

/-- `APPEND b`, R152. -/
def execAppend (b : Byte) (s : State) : Host.Outcome State Fault Refusal :=
  .next (whenAccepting s fun s => (s.acceptByte b).respondOk [])

/-- `APPEND0`, R153: no state changes, but it is still an append and fails outside `Accepting`. -/
def execAppend0 (s : State) : Host.Outcome State Fault Refusal :=
  .next (whenAccepting s fun s => s.respondOk [])

/-- `FINALIZE`, R154: the response carries the digest of the final hash state. -/
def execFinalize (s : State) : Host.Outcome State Fault Refusal :=
  .next (whenAccepting s fun s => s.finish.respondOk s.finish.digest)

end Sys2Proof.Machine
end

