-- ==== Sys2Proof/Machine/Dispatch.lean ====
section
/-! DEFINITION. One arm per constructor of Instr, each a call of its meaning. -/

namespace Sys2Proof.Machine

open Sys2Proof

def exec (i : Instr) (s : State) : Host.Outcome State Fault Refusal :=
  match i with
  | .init v => Sys2Proof.Machine.execInit v s
  | .append b => Sys2Proof.Machine.execAppend b s
  | .append0 => Sys2Proof.Machine.execAppend0 s
  | .finalize => Sys2Proof.Machine.execFinalize s
  | .reservedOp00 x => Sys2Proof.Machine.execReservedOp00 x s

end Sys2Proof.Machine
end

