-- ==== Sys2Proof/Machine/Sequencer.lean ====
section
/-! DEFINITION. Taking what the host presents (R57, R70, R150, R205, R230): the command word is decoded, then its
meaning runs. The engine fetches nothing: the word is an input (R30, R59). -/

namespace Sys2Proof.Machine

open Sys2Proof

/-- One command word taken, R205: first the decode, and an illegal word raises IllegalCommand whatever the phase;
only a legal command then meets its phase check, inside its meaning. -/
def runWord (cw : CommandWord) (s : State) : Host.Outcome State Fault Refusal :=
  match decode cw with
  | .instr i => exec i s
  | .illegal _ => .next s.illegalCommand

/-- The reset event, R230: the engine is as right after reset; what the host still presents is the host's. The
registers the spec leaves unspecified take the values of `State.reset` (DESIGN CHOICE, log entry 1). -/
def State.takeReset (s : State) : State :=
  State.reset.setInput s.input

/-- What one event does, once it has been taken from the host's side. -/
def runEvent (ev : HostEvent) (s : State) : Host.Outcome State Fault Refusal :=
  match ev with
  | .command cw => runWord cw s
  | .reset => .next s.takeReset
  | .commandsTogether _ _ => .refused .simultaneousCommands
  | .resetDuringCommand _ => .fault .resetMidCommand

/-- The host presents one more command word, ahead of whatever it was about to present. -/
def State.presentFirst (s : State) (cw : CommandWord) : State :=
  s.setInput (.command cw :: s.input)

end Sys2Proof.Machine
end

