-- ==== Sys2Proof/Machine/Step.lean ====
section
/-! DEFINITION. One step of the engine: the next thing the host presents, taken and run to completion (R7, R57). -/

namespace Sys2Proof.Machine

open Sys2Proof

/-- One step. While the host presents nothing the engine waits and nothing changes (DEDUCED, log entry 4). -/
def step (s : State) : Host.Outcome State Fault Refusal :=
  match s.input with
  | [] => .next s
  | ev :: rest => runEvent ev (s.setInput rest)

/-- The state with one command word placed where the next step takes it: at the head of what the host presents.
R70 gives a command word exactly 16 bits and leaves a longer number without meaning; DESIGN CHOICE (log entry 18): a
number that does not fit one word is no instruction, as `decodeTableWord` says too, and nothing is placed for it. -/
def State.withFetchWord (s : State) (nbits w : Nat) : State :=
  if w % 2 ^ nbits < 2 ^ 16 then s.presentFirst (BitVec.ofNat 16 (w % 2 ^ nbits)) else s

end Sys2Proof.Machine
end

