-- ==== Sys2Proof/Machine/Programs.lean ====
section
/-! DEFINITION. Programs of commands (R80), the pseudo-instructions APPENDS and DIGEST (R81, R82, R156), the
one-shot hash in closed form (R157), and several engines side by side (R211). -/

namespace Sys2Proof.Machine

open Sys2Proof

/-- `APPENDS s`, R81: one APPEND per byte, or APPEND0 for the empty sequence. -/
def appends : List Byte → List Instr
  | [] => [.append0]
  | b :: bs => (b :: bs).map Instr.append

/-- `DIGEST v, s`, R82. -/
def digestProgram (v : Variant) (s : List Byte) : List Instr :=
  .init v :: (appends s ++ [.finalize])

/-- Instructions executed one after another, each to completion (R57). -/
def execAll : List Instr → State → Host.Outcome State Fault Refusal
  | [], s => .next s
  | i :: rest, s =>
    match exec i s with
    | .next s' => execAll rest s'
    | .fault r => .fault r
    | .refused r => .refused r

/-- The host presents a program: its encodings, one after another, ahead of whatever it was about to present
(R80). -/
def State.present (s : State) (p : List Instr) : State :=
  s.setInput (p.map (fun i => HostEvent.command (encode i)) ++ s.input)

/-- The program presented and run: one step per command. -/
def runProgram (p : List Instr) (s : State) : Host.Outcome State Fault Refusal :=
  Sys2Proof.core.run p.length (s.present p)

/-- A sequence of blocks compressed in order into a hash state. -/
def compressAll (c : VariantConfig) (hash : HashWords (Word c.width)) (blocks : List (List Byte)) :
    HashWords (Word c.width) :=
  blocks.foldl (compress c) hash

/-- The padded message `M` of R157. -/
def paddedInput (c : VariantConfig) (s : List Byte) : List Byte :=
  paddedMessage c.width s (8 * s.length % 2 ^ lengthBits c.width)

/-- `DIGEST(v, s)` in closed form, R157: the whole padded message, block after block, from the initial hash
values. It speaks of no register, no buffer and no phase. -/
def oneShot (v : Variant) (s : List Byte) : List Byte :=
  digest (config v) (compressAll (config v) (config v).initialHash (blocksOf (config v).width (paddedInput (config v) s)))

/-- Several engines (R60, R211): engine `j` takes one step of its own; no other engine is touched. -/
def stepEngine : Nat → List State → Host.Outcome (List State) Fault Refusal
  | _, [] => .next []
  | 0, s :: rest =>
    match step s with
    | .next s' => .next (s' :: rest)
    | .fault r => .fault r
    | .refused r => .refused r
  | j + 1, s :: rest =>
    match stepEngine j rest with
    | .next rest' => .next (s :: rest')
    | .fault r => .fault r
    | .refused r => .refused r

end Sys2Proof.Machine
end

