-- ==== Sys2Proof/Safety.lean ====
section
/-! DEFINITION. What claims about a run speak of: the digest object as the host could know it, the invariant of
the engine, and which outcomes are safe. -/

namespace Sys2Proof.Machine

open Sys2Proof

/-- The digest object at its logical widths (R20, R34): the words as unsigned integers, and of BUF only the
meaningful cells `BUF[0..BUFLEN)` (R24). -/
structure DigestObject where
  cfg : Variant
  words : List Nat
  tail : List Byte
  length : Nat
deriving DecidableEq, Repr

/-- The digest object in the registers. -/
def State.object (s : State) : DigestObject where
  cfg := s.cfg
  words := (s.hash s.width).toList.map BitVec.toNat
  tail := s.tail
  length := s.length

/-- What the engine holds: the phase, and outside `Idle` the digest object. In `Idle` it holds none (R21, R33). -/
def State.holds (s : State) : Phase × Option DigestObject :=
  (s.phase, if s.phase = .idle then none else some s.object)

/-- The registers hold nothing above the logical widths (R34), the fill level is below the block size (R24), and
the counter agrees with the buffer: a whole number of bytes (R25), as many bytes beyond the last full block as
the buffer holds while `Accepting`, and an empty buffer once `Finalized` (R154). -/
abbrev State.objectInv (s : State) : Prop :=
  (∀ x ∈ s.h.toList, x.toNat < 2 ^ s.width.bits) ∧
  s.len.toNat < 2 ^ lengthBits s.width ∧
  s.bufLen.toNat < blockSize s.width ∧
  s.len.toNat % 8 = 0 ∧
  (s.phase = .accepting → s.len.toNat / 8 % blockSize s.width = s.bufLen.toNat) ∧
  (s.phase = .finalized → s.bufLen.toNat = 0)

/-- The invariant of the engine: the cells of BUF keep their canonical form; outside `Idle` the digest object is
sound; in `Idle` no command has succeeded since reset (R162). -/
abbrev State.Inv (s : State) : Prop :=
  Memory.wf s.buf = true ∧
  (s.phase ≠ .idle → s.objectInv) ∧
  (s.phase = .idle → ∀ r, s.response = some r → r.status ≠ .ok)

/-- The response a state carries is a success (R79). R208: a host that did not expect an error treats it as the
program having gone wrong. -/
def State.answeredOk (s : State) : Bool :=
  match s.response with
  | some r => decide (r.status = .ok)
  | none => false

/-- A safe outcome of a command: a next state whose response is a success. -/
def safeOutcome : Host.Outcome State Fault Refusal → Bool
  | .next s => s.answeredOk
  | .fault _ => false
  | .refused _ => false

end Sys2Proof.Machine
end

