-- ==== Sys2Proof/Certificates/Slice0/Obligations.lean ====
section
/-! DEFINITION. The statements about the engine, from the numbered rules of spec/. Each docstring names the rule.
The fields `input` and `response` that many of them speak of are the model's own (log entries 8 and 9).
None rests on a value the model chose for a register after reset (log entry 1) or for a cell of BUF that nothing
has written (log entry 2), unless it says so. -/

open Sys2Proof Sys2Proof.Machine

/-! ### Words (40_word_arithmetic.md) -/

/-- R91, R96: for every amount below the width, bit `i` of `ROTR(x, n)` is bit `(i + n) mod w` of `x`; the value is
the two shifts of R91 modulo `2^w`, and an amount of 0 is the identity. -/
def Obligations.RotateRightMovesEveryBit : Prop :=
  ∀ (w : Nat) (x : BitVec w) (n : Nat) (below : n < w),
    (∀ i, i < w → (rotr x n below).getLsbD i = x.getLsbD ((i + n) % w)) ∧
    (n = 0 → rotr x n below = x) ∧
    (0 < n → (rotr x n below).toNat = ((x.toNat >>> n) ||| (x.toNat <<< (w - n))) % 2 ^ w)

/-- R92, R96: `SHR(x, n)` is the floor of `x / 2^n`; bit `i` is bit `i + n` of `x`, or 0 past the top. -/
def Obligations.ShiftRightIsFloorDivision : Prop :=
  ∀ (w : Nat) (x : BitVec w) (n : Nat) (below : n < w),
    (shr x n below).toNat = x.toNat / 2 ^ n ∧
    (∀ i, i < w → (shr x n below).getLsbD i = if i + n < w then x.getLsbD (i + n) else false)

/-- R93: the sum modulo `2^w`, independent of the order and the grouping of the operands; `ADD(x, 0) = x` and
`ADD(2^w - 1, 1) = 0`. -/
def Obligations.AdditionIsModular : Prop :=
  ∀ (w : Nat) (xs ys : List (BitVec w)) (x : BitVec w),
    (addWords xs).toNat = (xs.map BitVec.toNat).sum % 2 ^ w ∧
    (xs.Perm ys → addWords xs = addWords ys) ∧
    addWords (xs ++ ys) = addWords [addWords xs, addWords ys] ∧
    addWords [x, 0] = x ∧
    (0 < w → addWords [BitVec.ofNat w (2 ^ w - 1), 1] = 0)

/-- R121, R122: bit `i` of `Ch` is taken from `y` where `x` has a 1 and from `z` where it has a 0; bit `i` of `Maj`
is 1 exactly when at least two of the three operands have it set; and the corner cases of the two rules. -/
def Obligations.ChooseSelectsAndMajorityCounts : Prop :=
  ∀ (w : Nat) (x y z : BitVec w),
    (∀ i, i < w → (ch x y z).getLsbD i = if x.getLsbD i then y.getLsbD i else z.getLsbD i) ∧
    (∀ i, i < w → ((maj x y z).getLsbD i = true ↔
      2 ≤ (x.getLsbD i).toNat + (y.getLsbD i).toNat + (z.getLsbD i).toNat)) ∧
    ch 0 y z = z ∧ ch (BitVec.allOnes w) y z = y ∧ ch x y y = y ∧
    maj x x z = x ∧ maj 0 y z = y &&& z ∧ maj x y z = maj y x z ∧ maj x y z = maj x z y

/-- The XOR of three bits. -/
abbrev xorBits (a b c : Bool) : Bool := Bool.xor (Bool.xor a b) c

/-- R112, R113: each small sigma, bit by bit, from the amounts of the rule: two rotations and one shift, whose bits
past the top are 0; the image of zero is zero, and that of all ones is the value of the rule. -/
def Obligations.SmallSigmasMixTheStatedBits : Prop :=
  (∀ (x : Word .w32) (i : Nat), i < 32 →
    (ssig0 .w32 x).getLsbD i = xorBits (x.getLsbD ((i + 7) % 32)) (x.getLsbD ((i + 18) % 32)) (x.getLsbD (i + 3)) ∧
    (ssig1 .w32 x).getLsbD i = xorBits (x.getLsbD ((i + 17) % 32)) (x.getLsbD ((i + 19) % 32)) (x.getLsbD (i + 10))) ∧
  (∀ (x : Word .w64) (i : Nat), i < 64 →
    (ssig0 .w64 x).getLsbD i = xorBits (x.getLsbD ((i + 1) % 64)) (x.getLsbD ((i + 8) % 64)) (x.getLsbD (i + 7)) ∧
    (ssig1 .w64 x).getLsbD i = xorBits (x.getLsbD ((i + 19) % 64)) (x.getLsbD ((i + 61) % 64)) (x.getLsbD (i + 6))) ∧
  (∀ e : Width, ssig0 e 0 = 0 ∧ ssig1 e 0 = 0) ∧
  ssig0 .w32 (BitVec.allOnes 32) = 0x1FFFFFFF#32 ∧ ssig1 .w32 (BitVec.allOnes 32) = 0x003FFFFF#32 ∧
  ssig0 .w64 (BitVec.allOnes 64) = 0x01FFFFFFFFFFFFFF#64 ∧ ssig1 .w64 (BitVec.allOnes 64) = 0x03FFFFFFFFFFFFFF#64

/-- R123, R124: each big sigma, bit by bit, from the amounts of the rule: three rotations; zero and all ones are their
own images. -/
def Obligations.BigSigmasMixTheStatedBits : Prop :=
  (∀ (x : Word .w32) (i : Nat), i < 32 →
    (bsig0 .w32 x).getLsbD i =
      xorBits (x.getLsbD ((i + 2) % 32)) (x.getLsbD ((i + 13) % 32)) (x.getLsbD ((i + 22) % 32)) ∧
    (bsig1 .w32 x).getLsbD i =
      xorBits (x.getLsbD ((i + 6) % 32)) (x.getLsbD ((i + 11) % 32)) (x.getLsbD ((i + 25) % 32))) ∧
  (∀ (x : Word .w64) (i : Nat), i < 64 →
    (bsig0 .w64 x).getLsbD i =
      xorBits (x.getLsbD ((i + 28) % 64)) (x.getLsbD ((i + 34) % 64)) (x.getLsbD ((i + 39) % 64)) ∧
    (bsig1 .w64 x).getLsbD i =
      xorBits (x.getLsbD ((i + 14) % 64)) (x.getLsbD ((i + 18) % 64)) (x.getLsbD ((i + 41) % 64))) ∧
  (∀ e : Width, bsig0 e 0 = 0 ∧ bsig1 e 0 = 0 ∧ bsig0 e (BitVec.allOnes e.bits) = BitVec.allOnes e.bits ∧
    bsig1 e (BitVec.allOnes e.bits) = BitVec.allOnes e.bits)

/-! ### Constants and parameters (45_variant_config.md) -/

/-- R189: the constants each variant's record holds are the fractional parts the rule names. With `p` the prime that
has `t` primes below it, `K[t]` of SHA384 and SHA512 is the first 64 bits after the point of the cube root of `p` (the
integer `r` with `r^3 ≤ p * 2^192 < (r+1)^3`, modulo `2^64`), and `K[t]` of SHA224 and SHA256 the first 32; the initial
values of SHA256, SHA512 and SHA384 are those of square roots (for SHA384 of the 9th to 16th primes), and those of
SHA224 are the low halves of SHA384's. -/
def Obligations.ConstantsAreFractionalParts : Prop :=
  (∀ v ∈ [Variant.sha224, Variant.sha256], ∀ p t, p.Prime → Nat.count Nat.Prime p = t → t < 64 →
    ∃ r, r ^ 3 ≤ p * 2 ^ 96 ∧ p * 2 ^ 96 < (r + 1) ^ 3 ∧ ((config v).roundConstants.getD t 0).toNat = r % 2 ^ 32) ∧
  (∀ v ∈ [Variant.sha384, Variant.sha512], ∀ p t, p.Prime → Nat.count Nat.Prime p = t → t < 80 →
    ∃ r, r ^ 3 ≤ p * 2 ^ 192 ∧ p * 2 ^ 192 < (r + 1) ^ 3 ∧
      ((config v).roundConstants.getD t 0).toNat = r % 2 ^ 64) ∧
  (∀ p t, p.Prime → Nat.count Nat.Prime p = t → t < 8 →
    (∃ r, r ^ 2 ≤ p * 2 ^ 64 ∧ p * 2 ^ 64 < (r + 1) ^ 2 ∧
      ((config .sha256).initialHash.toList.getD t 0).toNat = r % 2 ^ 32) ∧
    (∃ r, r ^ 2 ≤ p * 2 ^ 128 ∧ p * 2 ^ 128 < (r + 1) ^ 2 ∧
      ((config .sha512).initialHash.toList.getD t 0).toNat = r % 2 ^ 64)) ∧
  (∀ p t, p.Prime → Nat.count Nat.Prime p = t + 8 → t < 8 →
    ∃ r, r ^ 2 ≤ p * 2 ^ 128 ∧ p * 2 ^ 128 < (r + 1) ^ 2 ∧
      ((config .sha384).initialHash.toList.getD t 0).toNat = r % 2 ^ 64) ∧
  (∀ t, t < 8 → ((config .sha224).initialHash.toList.getD t 0).toNat =
    ((config .sha384).initialHash.toList.getD t 0).toNat % 2 ^ 32)

/-- R4, R181: the parameter table of the four variants. -/
def Obligations.ParametersOfTheFourVariants : Prop :=
  (∀ v ∈ [Variant.sha224, Variant.sha256],
    (config v).width.bits = 32 ∧ (config v).rounds = 64 ∧ blockSize (config v).width = 64 ∧
    lengthFieldSize (config v).width = 8 ∧ lengthBits (config v).width = 64 ∧
    (config v).roundConstants.length = 64) ∧
  (∀ v ∈ [Variant.sha384, Variant.sha512],
    (config v).width.bits = 64 ∧ (config v).rounds = 80 ∧ blockSize (config v).width = 128 ∧
    lengthFieldSize (config v).width = 16 ∧ lengthBits (config v).width = 128 ∧
    (config v).roundConstants.length = 80) ∧
  (config .sha224).outWords = 7 ∧ digestLength (config .sha224) = 28 ∧
  (config .sha256).outWords = 8 ∧ digestLength (config .sha256) = 32 ∧
  (config .sha384).outWords = 6 ∧ digestLength (config .sha384) = 48 ∧
  (config .sha512).outWords = 8 ∧ digestLength (config .sha512) = 64

/-! ### Byte order (00_scope.md, 20_memory.md) -/

/-- R6: `BE(n, v)` has `n` bytes, byte `j` being `(v >> 8(n-1-j)) & 0xFF`, and `be` is its inverse on both sides;
`be(s)` is the sum of `s[j] * 2^(8 (len(s)-1-j))`. -/
def Obligations.BigEndianIsItsOwnInverse : Prop :=
  (∀ n v, (bigEndian n v).length = n ∧
    (∀ j, j < n → ((bigEndian n v).getD j 0).toNat = (v >>> (8 * (n - 1 - j))) &&& 0xFF) ∧
    (v < 2 ^ (8 * n) → fromBigEndian (bigEndian n v) = v)) ∧
  (∀ s : List Byte,
    fromBigEndian s = ∑ j ∈ Finset.range s.length, (s.getD j 0).toNat * 2 ^ (8 * (s.length - 1 - j)) ∧
    bigEndian s.length (fromBigEndian s) = s)

/-- R52: `MemWrite(i, 1, b)` stores `b` in cell `i` of BUF and changes no other cell and no other register; a word of
the block is `MemRead` at its byte offset. -/
def Obligations.BufferAccessPrimitives : Prop :=
  (∀ (s : State) (i : Nat) (b : Byte), Memory.wf s.buf = true → i < blockSize s.width →
    ∃ m, s.memWrite i b = { s with buf := m } ∧ Memory.wf m = true ∧ Memory.read m i = b ∧
      ∀ a, a ≠ i → Memory.read m a = Memory.read s.buf a) ∧
  (∀ (s : State) (k : Nat), k < 16 →
    ((blockWords s.width s.block).getD k 0).toNat = s.memRead (wordBytes s.width * k) (wordBytes s.width))

/-! ### MessageSchedule (41_message_schedule.md) -/

/-- R111: word `t` of the first sixteen is the big-endian interpretation of sub-chunk `t`, and the sixteen
sub-chunks tile the block. -/
def Obligations.FirstSixteenWordsAreBigEndian : Prop :=
  ∀ (v : Variant) (B : List Byte), B.length = blockSize (config v).width →
    16 * wordBytes (config v).width = B.length ∧
    ∀ t, t < 16 → (wordAt (schedule (config v) B) t).toNat =
      ∑ j ∈ Finset.range (wordBytes (config v).width),
        (B.getD (wordBytes (config v).width * t + j) 0).toNat *
          2 ^ (8 * (wordBytes (config v).width - 1 - j))

/-- R114: from `t = 16` on every word is the sum of the four earlier words of the rule, and an all-zero block gives an
all-zero schedule; the schedule has `rounds` words. -/
def Obligations.ScheduleObeysTheRecurrence : Prop :=
  ∀ (v : Variant) (B : List Byte),
    (schedule (config v) B).length = (config v).rounds ∧
    (∀ t, 16 ≤ t → t < (config v).rounds →
      wordAt (schedule (config v) B) t =
        addWords [ssig1 (config v).width (wordAt (schedule (config v) B) (t - 2)),
          wordAt (schedule (config v) B) (t - 7),
          ssig0 (config v).width (wordAt (schedule (config v) B) (t - 15)),
          wordAt (schedule (config v) B) (t - 16)]) ∧
    (B = List.replicate (blockSize (config v).width) 0 → ∀ x ∈ schedule (config v) B, x = 0)

/-! ### CompressionCore (42_compression_core.md) -/

/-- R126: one round, in unsigned integers modulo `2^w`: `T1` and `T2` as the rule gives them, `a' = T1 + T2`,
`e' = d + T1`, and the other six variables moved down by one place, all from the values before the round. -/
def Obligations.RoundFollowsItsEquations : Prop :=
  ∀ (e : Width) (v : Working e) (k w : Word e),
    ∃ T1 T2 : Nat,
      T1 = (v.h.toNat + (bsig1 e v.e).toNat + (ch v.e v.f v.g).toNat + k.toNat + w.toNat) % 2 ^ e.bits ∧
      T2 = ((bsig0 e v.a).toNat + (maj v.a v.b v.c).toNat) % 2 ^ e.bits ∧
      (roundStep v k w).a.toNat = (T1 + T2) % 2 ^ e.bits ∧ (roundStep v k w).b = v.a ∧ (roundStep v k w).c = v.b ∧
      (roundStep v k w).d = v.c ∧ (roundStep v k w).e.toNat = (v.d.toNat + T1) % 2 ^ e.bits ∧
      (roundStep v k w).f = v.e ∧ (roundStep v k w).g = v.f ∧ (roundStep v k w).h = v.g

/-- R125, R127, R128 (and so `Compress` of R129, the spec's own inference from them): a compression is a run of
exactly `rounds` rounds from the hash words, round `t` with `K[t]` and `W[t]`, and then each hash word is the sum
modulo `2^w` of its old value and its working variable. -/
def Obligations.CompressionRunsEveryRoundInOrder : Prop :=
  ∀ (v : Variant) (H : HashWords (Word (config v).width)) (B : List Byte),
    ∃ run : Nat → Working (config v).width,
      run 0 = ⟨H.h0, H.h1, H.h2, H.h3, H.h4, H.h5, H.h6, H.h7⟩ ∧
      (∀ t, t < (config v).rounds → run (t + 1) =
        roundStep (run t) ((config v).roundConstants.getD t 0) (wordAt (schedule (config v) B) t)) ∧
      (compress (config v) H B).toList.map BitVec.toNat =
        [(H.h0.toNat + (run (config v).rounds).a.toNat) % 2 ^ (config v).width.bits,
         (H.h1.toNat + (run (config v).rounds).b.toNat) % 2 ^ (config v).width.bits,
         (H.h2.toNat + (run (config v).rounds).c.toNat) % 2 ^ (config v).width.bits,
         (H.h3.toNat + (run (config v).rounds).d.toNat) % 2 ^ (config v).width.bits,
         (H.h4.toNat + (run (config v).rounds).e.toNat) % 2 ^ (config v).width.bits,
         (H.h5.toNat + (run (config v).rounds).f.toNat) % 2 ^ (config v).width.bits,
         (H.h6.toNat + (run (config v).rounds).g.toNat) % 2 ^ (config v).width.bits,
         (H.h7.toNat + (run (config v).rounds).h.toNat) % 2 ^ (config v).width.bits]

/-! ### PaddingEncoder (43_padding_encoder.md) -/

/-- R142: `k` is the smallest number of zero bytes after which the length is `block_size - lfs` modulo the block
size; it equals the remainder the rule writes, is at most `block_size - 1` (for `n = block_size - lfs`), and is 0 for
`n = block_size - lfs - 1`; and every fill byte is 0x00. -/
def Obligations.ZeroFillIsTheLeast : Prop :=
  ∀ (e : Width) (n : Nat), n < blockSize e →
    (n + 1 + zeroFill e n) % blockSize e = blockSize e - lengthFieldSize e ∧
    (∀ k, (n + 1 + k) % blockSize e = blockSize e - lengthFieldSize e → zeroFill e n ≤ k) ∧
    (zeroFill e n : Int) = ((blockSize e : Int) - lengthFieldSize e - 1 - n) % blockSize e ∧
    zeroFill e n ≤ blockSize e - 1 ∧
    (n = blockSize e - lengthFieldSize e - 1 → zeroFill e n = 0) ∧
    (n = blockSize e - lengthFieldSize e → zeroFill e n = blockSize e - 1) ∧
    (∀ (T : List Byte) (L j : Nat), T.length = n → T.length + 1 ≤ j → j < T.length + 1 + zeroFill e n →
      (paddedMessage e T L).getD j 0xFF = 0x00)

/-- From R140 to R144, as the spec's own inference R147 says: the padded tail is the tail, the byte 0x80, zero bytes,
and the counter in `lfs` big-endian bytes; `Pad` cuts these bytes into blocks; it makes one block when `n + 1 + lfs ≤
block_size` and two otherwise, never more, and no byte is lost. -/
def Obligations.PaddingMakesOneOrTwoBlocks : Prop :=
  ∀ (e : Width) (T : List Byte) (L : Nat), T.length < blockSize e → L < 2 ^ lengthBits e →
    ∃ (k : Nat) (field : List Byte),
      paddedMessage e T L = T ++ [0x80] ++ List.replicate k 0 ++ field ∧
      (k : Int) = ((blockSize e : Int) - lengthFieldSize e - 1 - T.length) % blockSize e ∧
      field.length = lengthFieldSize e ∧ fromBigEndian field = L ∧
      (pad e T L).flatten = paddedMessage e T L ∧ (∀ B ∈ pad e T L, B.length = blockSize e) ∧
      (T.length + 1 + lengthFieldSize e ≤ blockSize e → (pad e T L).length = 1) ∧
      (blockSize e < T.length + 1 + lengthFieldSize e → (pad e T L).length = 2)

/-- From R141, R142 and R144, as the spec's own inference R145 says: when the padding spills, the first block is the
tail, the marker and zeros, and the second is zeros and the length field. -/
def Obligations.SpilledPaddingHasThisShape : Prop :=
  ∀ (e : Width) (T : List Byte) (L : Nat), T.length < blockSize e → L < 2 ^ lengthBits e →
    blockSize e < T.length + 1 + lengthFieldSize e →
    pad e T L =
      [T ++ [0x80] ++ List.replicate (blockSize e - 1 - T.length) 0,
       List.replicate (blockSize e - lengthFieldSize e) 0 ++ bigEndian (lengthFieldSize e) L]

/-! ### The digest (44_streaming_digest.md) -/

/-- R155, R188: the two forms of `Digest(H)` are the same byte sequence, it has 28, 32, 48 or 64 bytes by variant (7, 8,
6 or 8 leading words), and its byte 0 is the most significant byte of `H[0]`. -/
def Obligations.DigestIsTheLeadingBytes : Prop :=
  (∀ (v : Variant) (H : HashWords (Word (config v).width)),
    digest (config v) H =
      ((H.toList.take (config v).outWords).map fun x => bigEndian (wordBytes (config v).width) x.toNat).flatten ∧
    digest (config v) H =
      ((H.toList.map fun x => bigEndian (wordBytes (config v).width) x.toNat).flatten).take
        (digestLength (config v)) ∧
    ((digest (config v) H).getD 0 0).toNat = H.h0.toNat / 2 ^ ((config v).width.bits - 8)) ∧
  (config .sha224).outWords = 7 ∧ (∀ H, (digest (config .sha224) H).length = 28) ∧
  (config .sha256).outWords = 8 ∧ (∀ H, (digest (config .sha256) H).length = 32) ∧
  (config .sha384).outWords = 6 ∧ (∀ H, (digest (config .sha384) H).length = 48) ∧
  (config .sha512).outWords = 8 ∧ (∀ H, (digest (config .sha512) H).length = 64)

/-! ### The commands (44_streaming_digest.md) -/

/-- R151: INIT completes in every state: the variant, the initial hash values, an empty buffer, a zero counter, the
phase and the response are as the rule says; no cell of BUF changes, and the host's side is left alone. -/
def Obligations.InitCreatesTheObject : Prop :=
  ∀ (v : Variant) (s : State),
    ∃ t, exec (.init v) s = .next t ∧
      t.cfg = v ∧ t.hash (config v).width = (config v).initialHash ∧ t.fill = 0 ∧ t.length = 0 ∧
      t.phase = .accepting ∧ t.response = some ⟨.ok, []⟩ ∧ t.digestValid = false ∧
      (∀ a, Memory.read t.buf a = Memory.read s.buf a) ∧ t.input = s.input

/-- R32, with the phase and the response of R151: whatever two engines held, after the same INIT both are in Accepting,
hold the same object and have answered OK. -/
def Obligations.InitForgetsThePast : Prop :=
  ∀ (v : Variant) (s s' t t' : State), exec (.init v) s = .next t → exec (.init v) s' = .next t' →
    t.phase = .accepting ∧ t'.phase = .accepting ∧ t.holds = t'.holds ∧ t.holds.2 ≠ none ∧
      t.response = some ⟨.ok, []⟩ ∧ t'.response = some ⟨.ok, []⟩

/-- R152: APPEND outside Accepting raises InvalidState and changes nothing else. In Accepting it completes: the byte is
stored at BUFLEN and nowhere else, LEN advances by 8 modulo its width, and BUFLEN by one, unless the byte fills the
block, which is then compressed in the same step and BUFLEN returns to 0. -/
def Obligations.AppendAddsOneByte : Prop :=
  ∀ (b : Byte) (s : State), Memory.wf s.buf = true →
    (s.phase ≠ .accepting → exec (.append b) s = .next { s with response := some ⟨.invalidState, []⟩ }) ∧
    (s.phase = .accepting → ∃ t, exec (.append b) s = .next t ∧
      t.response = some ⟨.ok, []⟩ ∧ t.phase = .accepting ∧ t.cfg = s.cfg ∧ t.input = s.input ∧
      Memory.read t.buf s.fill = b ∧ (∀ a, a ≠ s.fill → Memory.read t.buf a = Memory.read s.buf a) ∧
      t.length = (s.length + 8) % 2 ^ lengthBits s.width ∧
      (s.fill + 1 ≠ blockSize s.width → t.fill = s.fill + 1 ∧ t.h = s.h ∧ t.tail = s.tail ++ [b]) ∧
      (s.fill + 1 = blockSize s.width → t.fill = 0 ∧ t.tail = [] ∧
        t.hash s.width = compress s.config (s.hash s.width) (s.tail ++ [b])))

/-- R153: APPEND0 in Accepting answers OK and leaves every register and cell as it was; outside Accepting it raises
InvalidState; and it is not APPEND 0x00, which advances LEN. -/
def Obligations.EmptyAppendChangesNothing : Prop :=
  ∀ s : State,
    (s.phase = .accepting → exec .append0 s = .next { s with response := some ⟨.ok, []⟩ }) ∧
    (s.phase ≠ .accepting → exec .append0 s = .next { s with response := some ⟨.invalidState, []⟩ }) ∧
    (s.phase = .accepting → ∀ t, exec (.append 0) s = .next t → t.length ≠ s.length)

/-- R154: FINALIZE outside Accepting raises InvalidState and changes nothing else. In Accepting it completes: the one or
two padding blocks of the buffered tail are compressed in order, BUFLEN is 0, the phase is Finalized, LEN, CFG and
every cell of BUF are as before, and the response carries the digest of the final hash state. -/
def Obligations.FinalizeReturnsTheDigest : Prop :=
  ∀ s : State,
    (s.phase ≠ .accepting → exec .finalize s = .next { s with response := some ⟨.invalidState, []⟩ }) ∧
    (s.phase = .accepting → ∃ t, exec .finalize s = .next t ∧
      t.phase = .finalized ∧ t.fill = 0 ∧ t.len = s.len ∧ t.cfg = s.cfg ∧ t.input = s.input ∧
      (∀ a, Memory.read t.buf a = Memory.read s.buf a) ∧
      ((∃ B, pad s.width s.tail s.length = [B] ∧
          t.hash s.width = compress s.config (s.hash s.width) B) ∨
       (∃ B B', pad s.width s.tail s.length = [B, B'] ∧
          t.hash s.width = compress s.config (compress s.config (s.hash s.width) B) B')) ∧
      t.response = some ⟨.ok, digest s.config (t.hash s.width)⟩)

/-- R77 (a), R202, R206: the reserved operation raises IllegalCommand in every phase, whatever its other bits are, and
changes no state element. -/
def Obligations.ReservedOperationIsIllegal : Prop :=
  ∀ (x : BitVec 14) (s : State),
    exec (.reservedOp00 x) s = .next { s with response := some ⟨.illegalCommand, []⟩ }

/-- R160: at the last value of LEN an APPEND still succeeds, and LEN wraps to 0. -/
def Obligations.LengthCounterWraps : Prop :=
  ∀ (b : Byte) (s : State), s.phase = .accepting → s.length = 2 ^ lengthBits s.width - 8 →
    ∃ t, exec (.append b) s = .next t ∧ t.length = 0 ∧ t.response = some ⟨.ok, []⟩

/-! ### Encoding (30_encoding.md) -/

/-- From R72 to R75, R77 (a) and R83: each row of the opcode table is exactly the words its mask and match select, with
the operand in the bits the format gives it, and the encodings are the numbers of the rules. That a word with `op = 00`
decodes to the table's row RESERVED_OP00 whatever its reserved bits is the model's reading (log entry 11, DEDUCED):
R78 answers Illegal there, and the row's meaning is that answer. -/
def Obligations.TableRowsSelectTheirWords : Prop :=
  (∀ cw : CommandWord,
    (cw &&& 0xFFFC#16 = 0x4000#16 ↔ ∃ v : Variant, decode cw = .instr (.init v) ∧ v.code = cw.extractLsb' 0 2) ∧
    (cw &&& 0xFF00#16 = 0x8100#16 ↔ decode cw = .instr (.append (cw.extractLsb' 0 8))) ∧
    (cw &&& 0xFFFF#16 = 0x8000#16 ↔ decode cw = .instr .append0) ∧
    (cw &&& 0xFFFF#16 = 0xC000#16 ↔ decode cw = .instr .finalize) ∧
    (cw &&& 0xC000#16 = 0x0000#16 ↔ decode cw = .instr (.reservedOp00 (cw.extractLsb' 0 14)))) ∧
  encode (.init .sha224) = 0x4000 ∧ encode (.init .sha256) = 0x4001 ∧ encode (.init .sha384) = 0x4002 ∧
  encode (.init .sha512) = 0x4003 ∧ (∀ b : Byte, encode (.append b) = 0x8100#16 + b.setWidth 16) ∧
  encode .append0 = 0x8000 ∧ encode .finalize = 0xC000

/-- R77: exactly 262 words are legal, those of the four formats; a word is illegal exactly when one of the five cases
of the rule holds; and an illegal word raises IllegalCommand in every phase and changes no state. The fields are
taken from the number of the word. -/
def Obligations.ExactlyTheseWordsAreLegal : Prop :=
  ((Finset.range (2 ^ 16)).filter fun n => legal (BitVec.ofNat 16 n) = true).card = 262 ∧
  (∀ cw : CommandWord,
    (legal cw = true ↔
      (0x4000 ≤ cw.toNat ∧ cw.toNat ≤ 0x4003) ∨ (0x8100 ≤ cw.toNat ∧ cw.toNat ≤ 0x81FF) ∨
      cw.toNat = 0x8000 ∨ cw.toNat = 0xC000) ∧
    (legal cw = false ↔
      cw.toNat / 2 ^ 14 = 0 ∨ cw.toNat / 2 ^ 9 % 32 ≠ 0 ∨
      (cw.toNat / 2 ^ 14 = 1 ∧ (cw.toNat / 2 ^ 8 % 2 = 1 ∨ cw.toNat / 2 ^ 2 % 64 ≠ 0)) ∨
      (cw.toNat / 2 ^ 14 = 2 ∧ cw.toNat / 2 ^ 8 % 2 = 0 ∧ cw.toNat % 256 ≠ 0) ∨
      (cw.toNat / 2 ^ 14 = 3 ∧ (cw.toNat / 2 ^ 8 % 2 = 1 ∨ cw.toNat % 256 ≠ 0)))) ∧
  (∀ (cw : CommandWord) (s : State), legal cw = false →
    runWord cw s = .next { s with response := some ⟨.illegalCommand, []⟩ })

/-- R78: decoding an encoded instruction gives it back, for every instruction of the table with every operand. For the
fifth row, RESERVED_OP00, the round trip is the model's reading (log entry 11, DEDUCED). -/
def Obligations.DecodeUndoesEncode : Prop :=
  ∀ i : Instr, decode (encode i) = .instr i

/-- R78: a word that decodes to an instruction is that instruction's encoding, so no two words share a meaning and no
bit is dropped; and distinct instructions have distinct words. That the words with `op = 00` are those of RESERVED_OP00
is the model's reading (log entry 11, DEDUCED). -/
def Obligations.EncodeUndoesDecode : Prop :=
  (∀ (cw : CommandWord) (i : Instr), decode cw = .instr i → encode i = cw) ∧
  (∀ i j : Instr, encode i = encode j → i = j)

/-- From R72 to R77, as the spec's own inference R84 says: the worked encodings, and words written out bit by bit from
the formats: a sanity statement. Which case names an illegal word is the model's reading (log entry 11, DEDUCED). -/
def Obligations.WrittenWordsDecode : Prop :=
  decode 0b0100000000000010#16 = .instr (.init .sha384) ∧
  decode 0b1000000101100001#16 = .instr (.append 0x61) ∧
  decode 0b1000000000000000#16 = .instr .append0 ∧
  decode 0b1100000000000000#16 = .instr .finalize ∧
  decode 0b0011111111111111#16 = .instr (.reservedOp00 0x3FFF) ∧
  decode 0b0100000000000100#16 = .illegal .initOperand ∧
  decode 0b1000000000000001#16 = .illegal .appendOperand ∧
  decode 0b1100000100000000#16 = .illegal .finalizeOperand ∧
  decode 0b0100001000000000#16 = .illegal .reservedBits ∧
  encode (.init .sha256) = 0x4001 ∧ encode (.append 0x61) = 0x8161 ∧ encode (.append 0x00) = 0x8100 ∧
  encode .append0 = 0x8000 ∧ encode .finalize = 0xC000 ∧
  legal 0x4004 = false ∧ legal 0x8001 = false ∧ legal 0xC100 = false ∧ legal 0x4200 = false ∧ legal 0x0000 = false

/-! ### Responses and errors (30_encoding.md, 60_exceptions.md) -/

/-- R205, R150, R200: the status of every command word in every state: an illegal word answers IllegalCommand whatever
the phase, INIT answers OK, and the other three answer OK in Accepting and InvalidState elsewhere. So it depends
on the word and the phase alone. -/
def Obligations.StatusDependsOnWordAndPhase : Prop :=
  ∀ (cw : CommandWord) (s : State),
    ∃ t r, runWord cw s = .next t ∧ t.response = some r ∧
      r.status = (if legal cw = false then Status.illegalCommand
        else if cw.toNat / 2 ^ 14 = 1 then Status.ok
        else if s.phase = .accepting then Status.ok
        else Status.invalidState)

/-- R79: every command word is answered with exactly one response before the next is taken; the data is empty except
for a successful FINALIZE, where it is the digest, of the digest's length; the status codes are 0, 1 and 2, never 3.
Where a word waits and where its response stands are the model's fields (log entries 8 and 9). -/
def Obligations.EveryCommandIsAnswered : Prop :=
  (∀ (cw : CommandWord) (rest : List HostEvent) (s : State), s.input = .command cw :: rest →
    ∃ t r, step s = .next t ∧ t.input = rest ∧ t.response = some r ∧
      (r.status ≠ .ok → r.data = []) ∧ (decode cw ≠ .instr .finalize → r.data = []) ∧
      (decode cw = .instr .finalize → r.status = .ok → r.data = t.digest ∧ r.data.length = digestLength s.config)) ∧
  Status.ok.code = 0 ∧ Status.invalidState.code = 1 ∧ Status.illegalCommand.code = 2 ∧
  (∀ st : Status, st.code ≠ 3)

/-- From R201 (InvalidState, in Idle and in Finalized) and R202 (IllegalCommand), and as R206 gathers them, partly
inference and partly decision D15: an error changes no state element: whatever the word and the phase, if the response
is an error the state is the one before, but for that response. -/
def Obligations.ErrorsChangeNothing : Prop :=
  ∀ (cw : CommandWord) (s t : State) (r : Response), runWord cw s = .next t → t.response = some r →
    r.status ≠ .ok → t = { s with response := some ⟨r.status, []⟩ }

/-- R207, R31: no error is sticky and no response is read by the engine: after a command that failed, every command
does exactly what it would have done had the failing one not been issued. -/
def Obligations.ErrorsLeaveNoTrace : Prop :=
  ∀ (bad cw : CommandWord) (s t : State) (r : Response), runWord bad s = .next t → t.response = some r →
    r.status ≠ .ok → runWord cw t = runWord cw s

/-- R162: in Idle the three commands that need a digest object raise InvalidState and change nothing, and INIT
succeeds. -/
def Obligations.IdleEngineHoldsNoObject : Prop :=
  ∀ s : State, s.phase = .idle →
    (∀ b, exec (.append b) s = .next { s with response := some ⟨.invalidState, []⟩ }) ∧
    exec .append0 s = .next { s with response := some ⟨.invalidState, []⟩ } ∧
    exec .finalize s = .next { s with response := some ⟨.invalidState, []⟩ } ∧
    (∀ v, ∃ t, exec (.init v) s = .next t ∧ t.phase = .accepting ∧ t.response = some ⟨.ok, []⟩)

/-- R161: in Finalized the same three commands raise InvalidState, return no data and change nothing, so the digest
output stays readable and the same; the only steps out of Finalized are INIT and reset. -/
def Obligations.FinalizedIsTerminal : Prop :=
  ∀ s : State, s.phase = .finalized →
    (∀ b, exec (.append b) s = .next { s with response := some ⟨.invalidState, []⟩ }) ∧
    exec .append0 s = .next { s with response := some ⟨.invalidState, []⟩ } ∧
    exec .finalize s = .next { s with response := some ⟨.invalidState, []⟩ } ∧
    (∀ t, step s = .next t → t.phase = .finalized → t.digestOutput = s.digestOutput ∧ s.digestOutput ≠ none) ∧
    (∀ t, step s = .next t → t.phase ≠ .finalized →
      (∃ rest, s.input = .reset :: rest) ∨
      (∃ cw rest v, s.input = .command cw :: rest ∧ decode cw = .instr (.init v)))

/-! ### The step and the whole machine (10_state.md, 70_reset_and_hazards.md) -/

/-- A step runs the decoded instruction (R150, R57): when the host presents a word that decodes to `i`, the step is
`exec i` of the state from which that word has been taken; a word the decoder rejects raises IllegalCommand; and
`withFetchWord` places a word so that the very next step runs it. -/
def Obligations.StepRunsTheDecodedCommand : Prop :=
  (∀ (s : State) (cw : CommandWord) (rest : List HostEvent), s.input = .command cw :: rest →
    (∀ i, decode cw = .instr i → step s = exec i { s with input := rest }) ∧
    (∀ r, decode cw = .illegal r →
      step s = .next { s with input := rest, response := some ⟨.illegalCommand, []⟩ })) ∧
  (∀ (s : State) (i : Instr),
    step (s.withFetchWord 16 (encode i).toNat) = exec i s ∧ decodeTableWord 16 (encode i).toNat = some i)

/-- R203, R56 and the log's entries 3 and 5: no command and no reset stops the engine; the step stops exactly when the
host breaks its contract (two commands at once, U5, or a reset during a command, U11), under a name of its own. -/
def Obligations.EngineStopsOnlyOnABrokenContract : Prop :=
  ∀ s : State,
    ((∀ a b rest, s.input ≠ .commandsTogether a b :: rest) → (∀ cw rest, s.input ≠ .resetDuringCommand cw :: rest) →
      ∃ t, step s = .next t) ∧
    (∀ a b rest, s.input = .commandsTogether a b :: rest → step s = .refused .simultaneousCommands) ∧
    (∀ cw rest, s.input = .resetDuringCommand cw :: rest → step s = .fault .resetMidCommand)

/-- R21: the phase after every step, complete, and the codes of the phases (3 is never taken). That a step with nothing
presented changes nothing is log entry 4 (DEDUCED). -/
def Obligations.PhaseTransitionsAreComplete : Prop :=
  (∀ s t : State, step s = .next t →
    t.phase = match s.input with
      | .reset :: _ => .idle
      | .command cw :: _ =>
        match decode cw with
        | .instr (.init _) => .accepting
        | .instr .finalize => if s.phase = .accepting then .finalized else s.phase
        | _ => s.phase
      | _ => s.phase) ∧
  Phase.idle.code = 0 ∧ Phase.accepting.code = 1 ∧ Phase.finalized.code = 2 ∧ (∀ p : Phase, p.code ≠ 3)

/-- R20, the column "Written by", as a frame over every step: a register that differs after a step names the event that
wrote it (reset may change any of them). -/
def Obligations.EachRegisterHasItsWriters : Prop :=
  ∀ s t : State, step s = .next t → (∀ rest, s.input ≠ .reset :: rest) →
    (t.cfg ≠ s.cfg → ∃ cw rest v, s.input = .command cw :: rest ∧ decode cw = .instr (.init v)) ∧
    (t.h ≠ s.h → ∃ cw rest, s.input = .command cw :: rest ∧
      ((∃ v, decode cw = .instr (.init v)) ∨
       (∃ b, decode cw = .instr (.append b) ∧ s.fill + 1 = blockSize s.width ∧ s.phase = .accepting) ∨
       (decode cw = .instr .finalize ∧ s.phase = .accepting))) ∧
    (t.bufLen ≠ s.bufLen → ∃ cw rest, s.input = .command cw :: rest ∧
      ((∃ v, decode cw = .instr (.init v)) ∨ (∃ b, decode cw = .instr (.append b) ∧ s.phase = .accepting) ∨
       (decode cw = .instr .finalize ∧ s.phase = .accepting))) ∧
    (t.len ≠ s.len → ∃ cw rest, s.input = .command cw :: rest ∧
      ((∃ v, decode cw = .instr (.init v)) ∨ (∃ b, decode cw = .instr (.append b) ∧ s.phase = .accepting))) ∧
    (∀ a, Memory.read t.buf a ≠ Memory.read s.buf a → a = s.fill ∧ ∃ cw rest b, s.input = .command cw :: rest ∧
      decode cw = .instr (.append b) ∧ s.phase = .accepting)

/-- R29, R154: `digest_valid` is `PHASE == Finalized`; after a successful FINALIZE the response carries exactly the
digest output; and while `digest_valid` stays 1 the output does not change. -/
def Obligations.DigestOutputMatchesTheResponse : Prop :=
  (∀ s : State, (s.digestValid = true ↔ s.phase = .finalized) ∧ (s.digestValid = false → s.digestOutput = none)) ∧
  (∀ s t : State, s.phase = .accepting → exec .finalize s = .next t →
    ∃ d, t.response = some ⟨.ok, d⟩ ∧ t.digestOutput = some d ∧ d.length = digestLength s.config) ∧
  (∀ s t : State, s.digestValid = true → step s = .next t → t.digestValid = true → t.digestOutput = s.digestOutput)

/-- R230, R33: a reset between two commands leaves the engine in Idle with `digest_valid = 0`, in one step from every
state. It says nothing of the registers the spec leaves unspecified. -/
def Obligations.ResetReturnsToIdle : Prop :=
  ∀ (s : State) (rest : List HostEvent), s.input = .reset :: rest →
    ∃ t, step s = .next t ∧ t.phase = .idle ∧ t.digestValid = false ∧ t.digestOutput = none ∧ t.input = rest ∧
      t.holds = (.idle, none)

/-- R33, R21: right after reset the phase is Idle, `digest_valid` is 0 and the invariant holds. Nothing is presented and
nothing has been answered: these two fields are the model's own (log entries 8 and 9). -/
def Obligations.ResetStateIsSound : Prop :=
  State.reset.phase = .idle ∧ State.reset.digestValid = false ∧ State.reset.input = [] ∧
  State.reset.response = none ∧ State.reset.Inv

/-- The invariant every step keeps (R24, R25, R154, R162, and the canonical form of the cells): from every state that
meets it, not only from reset. Two of its clauses rest on the model's own choices: that H and LEN are zero above the
logical width is log entry 7 (R34 says "held at zero or ignored"), and that Idle carries no success in the response
field is log entry 9 (the field is the model's, and a reset clears it). -/
def Obligations.EveryStepKeepsTheInvariant : Prop :=
  ∀ s t : State, s.Inv → step s = .next t → t.Inv

/-- R35, R34, R24: what the registers hold above their logical widths, in the cells past BUFLEN, and in every register
while Idle, is never observed: two engines with cells in canonical form that hold the same object answer every
command word alike, hold the same object afterwards, still with cells in canonical form, and show the same digest
output; so the relation is one that every pair of steps keeps. -/
def Obligations.HiddenBitsAreNeverObserved : Prop :=
  ∀ (cw : CommandWord) (s s' : State), Memory.wf s.buf = true → Memory.wf s'.buf = true → s.holds = s'.holds →
    ∃ t t', runWord cw s = .next t ∧ runWord cw s' = .next t' ∧
      Memory.wf t.buf = true ∧ Memory.wf t'.buf = true ∧ t.holds = t'.holds ∧
      t.response = t'.response ∧ t.digestOutput = t'.digestOutput

/-- R57, R80: a program the host presents runs in order, one step per command, and what is presented after it has no
influence: the run is the instructions executed one after another. What is presented is the model's field `input` (log
entry 8). -/
def Obligations.PresentedProgramsRunInOrder : Prop :=
  ∀ (p : List Instr) (s : State), runProgram p s = execAll p s

/-- R25: after INIT, LEN is 8 times the number of APPEND commands that succeeded since, modulo its width: those before
the first FINALIZE. -/
def Obligations.LengthCountsTheAppends : Prop :=
  ∀ (v : Variant) (p : List Instr) (s : State), (∀ i ∈ p, ∀ u, i ≠ .init u) →
    ∃ t, execAll (.init v :: p) s = .next t ∧ t.cfg = v ∧
      t.length =
        8 * ((p.takeWhile fun i => decide (i ≠ .finalize)).countP fun i =>
          match i with
          | .append _ => true
          | _ => false) % 2 ^ lengthBits (config v).width

/-- From R152 and R153, as the spec's own inference R156 says: APPENDS in closed form. In Accepting, with `D` the
buffered tail followed by the bytes, the full blocks of `D` are compressed in order and the rest stays buffered;
outside Accepting it fails and changes nothing. -/
def Obligations.AppendsHasAClosedForm : Prop :=
  ∀ (m : List Byte) (s : State), Memory.wf s.buf = true →
    (s.phase ≠ .accepting → execAll (appends m) s = .next { s with response := some ⟨.invalidState, []⟩ }) ∧
    (s.phase = .accepting → ∃ t, execAll (appends m) s = .next t ∧
      t.phase = .accepting ∧ t.cfg = s.cfg ∧ t.response = some ⟨.ok, []⟩ ∧ Memory.wf t.buf = true ∧
      t.hash s.width = compressAll s.config (s.hash s.width) (blocksOf s.width (s.tail ++ m)) ∧
      t.tail = (s.tail ++ m).drop ((s.fill + m.length) / blockSize s.width * blockSize s.width) ∧
      t.fill = (s.fill + m.length) % blockSize s.width ∧
      t.length = (s.length + 8 * m.length) % 2 ^ lengthBits s.width)

/-- From R152 and R153, as the spec's own inference R158 says: chunking independence. Feeding two sequences one after
the other is feeding their concatenation, and an APPEND0 in between changes nothing; in every phase (outside Accepting
both sides fail alike). -/
def Obligations.ChunkingDoesNotMatter : Prop :=
  ∀ (m n : List Byte) (s : State),
    execAll (appends m ++ appends n) s = execAll (appends (m ++ n)) s ∧
    execAll (appends m ++ .append0 :: appends n) s = execAll (appends (m ++ n)) s

/-- From R151 to R155, R147 and the expansion of R82, as the spec's own inference R157 says: from every state, the
program `INIT v; APPENDS m; FINALIZE` runs to the end, answers OK and returns the SHA-2 hash of `m` in closed form,
which speaks of no buffer and no phase; the engine is then Finalized and shows the same digest. -/
def Obligations.StreamingEqualsOneShot : Prop :=
  ∀ (v : Variant) (m : List Byte) (s : State), Memory.wf s.buf = true →
    ∃ t, runProgram (digestProgram v m) s = .next t ∧ t.response = some ⟨.ok, oneShot v m⟩ ∧
      t.phase = .finalized ∧ t.cfg = v ∧ t.digestOutput = some (oneShot v m) ∧
      (oneShot v m).length = digestLength (config v)

/-- R60, R211: engines share nothing: when engine `j` takes a step, it goes where it would go alone and every other
engine is as it was. It rests on the model's choice of log entry 15 (DESIGN CHOICE): several engines are a list of
states in which one engine takes one step at a time, which is `stepEngine`; it is a law of `stepEngine` that would hold
of any step. -/
def Obligations.EnginesShareNothing : Prop :=
  ∀ (es : List State) (j : Nat) (s : State), es[j]? = some s →
    (∀ s', step s = .next s' → ∃ es', stepEngine j es = .next es' ∧ es'[j]? = some s' ∧ es'.length = es.length ∧
      ∀ k, k ≠ j → es'[k]? = es[k]?) ∧
    (∀ r, step s = .fault r → stepEngine j es = .fault r) ∧
    (∀ r, step s = .refused r → stepEngine j es = .refused r)
end

