-- ==== Sys2Proof/Laws/Bytes.lean ====
section
/-! SUPPORT. `BE` and `be` (R6), and sequences cut into blocks. -/

namespace Sys2Proof.Machine

open Sys2Proof

/-! ### Big-endian integers -/

@[simp] theorem bigEndian_length (n v : Nat) : (bigEndian n v).length = n := by
  simp [bigEndian]

/-- The last byte of `BE(n+1, v)` is the low byte of `v`; the bytes before it are those of `v / 256`. -/
theorem bigEndian_succ (n v : Nat) : bigEndian (n + 1) v = bigEndian n (v / 256) ++ [BitVec.ofNat 8 v] := by
  simp only [bigEndian, List.range_succ, List.map_append, List.map_cons, List.map_nil]
  congr 1
  · refine List.map_congr_left fun j hj => ?_
    have lt : j < n := List.mem_range.mp hj
    congr 1
    have : 8 * (n + 1 - 1 - j) = 8 + 8 * (n - 1 - j) := by omega
    rw [this, Nat.shiftRight_add, Nat.shiftRight_eq_div_pow v 8]
  · simp

theorem fromBigEndian_snoc (s : List Byte) (b : Byte) :
    fromBigEndian (s ++ [b]) = 256 * fromBigEndian s + b.toNat := by
  simp [fromBigEndian]

theorem fromBigEndian_bigEndian (n : Nat) : ∀ v, fromBigEndian (bigEndian n v) = v % 256 ^ n := by
  induction n with
  | zero => intro v; simp [bigEndian, fromBigEndian, Nat.mod_one]
  | succ n ih =>
    intro v
    have power : 256 ^ (n + 1) = 256 * 256 ^ n := Nat.pow_succ'
    rw [bigEndian_succ, fromBigEndian_snoc, ih, BitVec.toNat_ofNat, power, Nat.mod_mul]
    omega

theorem fromBigEndian_lt (s : List Byte) : fromBigEndian s < 256 ^ s.length := by
  induction s using List.reverseRecOn with
  | nil => simp [fromBigEndian]
  | append_singleton s b ih =>
    rw [fromBigEndian_snoc, List.length_append, List.length_singleton, Nat.pow_succ]
    have := b.isLt
    omega

theorem bigEndian_fromBigEndian (s : List Byte) : bigEndian s.length (fromBigEndian s) = s := by
  induction s using List.reverseRecOn with
  | nil => simp [bigEndian]
  | append_singleton s b ih =>
    have lt := b.isLt
    rw [List.length_append, List.length_singleton, bigEndian_succ, fromBigEndian_snoc]
    have quotient : (256 * fromBigEndian s + b.toNat) / 256 = fromBigEndian s := by omega
    rw [quotient, ih]
    congr 2
    apply BitVec.eq_of_toNat_eq
    rw [BitVec.toNat_ofNat]
    omega

/-! ### Slices and blocks -/

theorem slice_append_left {α : Type} (a b : List α) {i j : Nat} (h : j ≤ a.length) :
    slice (a ++ b) i j = slice a i j := by
  unfold slice
  by_cases le : i ≤ a.length
  · rw [List.drop_append_of_le_length le, List.take_append_of_le_length (by simp; omega)]
  · have : j - i = 0 := by omega
    simp [this]

theorem slice_append_right {α : Type} (a b : List α) (i j : Nat) :
    slice (a ++ b) (a.length + i) (a.length + j) = slice b i j := by
  unfold slice
  rw [Nat.add_sub_add_left, ← List.drop_drop, List.drop_left]

theorem slice_length {α : Type} (s : List α) {i j : Nat} (h : j ≤ s.length) : (slice s i j).length = j - i := by
  simp [slice]; omega

theorem slice_all {α : Type} (s : List α) : slice s 0 s.length = s := by
  simp [slice]

@[simp] theorem blocksOf_count (e : Width) (s : List Byte) : (blocksOf e s).length = s.length / blockSize e := by
  simp [blocksOf]

/-- Fewer bytes than a block make no block. -/
theorem blocksOf_short {e : Width} {s : List Byte} (h : s.length < blockSize e) : blocksOf e s = [] := by
  simp [blocksOf, Nat.div_eq_of_lt h]

/-- The blocks of a concatenation whose first part is whole blocks. -/
theorem blocksOf_append {e : Width} {a : List Byte} (b : List Byte) {q : Nat} (h : a.length = q * blockSize e) :
    blocksOf e (a ++ b) = blocksOf e a ++ blocksOf e b := by
  have pos : 0 < blockSize e := by cases e <;> decide
  have count : (a ++ b).length / blockSize e = q + b.length / blockSize e := by
    rw [List.length_append, h, Nat.add_comm, Nat.add_mul_div_right _ _ pos, Nat.add_comm]
  have countA : a.length / blockSize e = q := by rw [h, Nat.mul_div_cancel _ pos]
  unfold blocksOf
  rw [count, countA, List.range_add, List.map_append, List.map_map]
  congr 1
  · refine List.map_congr_left fun j hj => ?_
    have : j + 1 ≤ q := List.mem_range.mp hj
    exact slice_append_left a b (by rw [h]; exact Nat.mul_le_mul_right _ this)
  · refine List.map_congr_left fun j _ => ?_
    have one : (q + j) * blockSize e = a.length + j * blockSize e := by rw [h, Nat.add_mul]
    have two : (q + j + 1) * blockSize e = a.length + (j + 1) * blockSize e := by
      rw [h, Nat.add_assoc, Nat.add_mul]
    simp only [Function.comp_apply, one, two]
    exact slice_append_right a b _ _

/-- One block's worth of bytes is one block. -/
theorem blocksOf_one {e : Width} {s : List Byte} (h : s.length = blockSize e) : blocksOf e s = [s] := by
  have pos : 0 < blockSize e := by cases e <;> decide
  have one : s.length / blockSize e = 1 := by rw [h, Nat.div_self pos]
  have all : slice s (0 * blockSize e) ((0 + 1) * blockSize e) = s := by
    rw [Nat.zero_mul, Nat.zero_add, Nat.one_mul, ← h, slice_all]
  rw [blocksOf, one, List.range_one, List.map_cons, List.map_nil, all]

/-- Each block has the block size. -/
theorem length_of_mem_blocksOf {e : Width} {s b : List Byte} (h : b ∈ blocksOf e s) : b.length = blockSize e := by
  simp only [blocksOf, List.mem_map, List.mem_range] at h
  obtain ⟨j, lt, rfl⟩ := h
  have le : (j + 1) * blockSize e ≤ s.length :=
    (Nat.mul_le_mul_right _ (Nat.succ_le_of_lt lt)).trans (Nat.div_mul_le_self _ _)
  rw [slice_length s le, Nat.add_mul, Nat.one_mul, Nat.add_sub_cancel_left]

/-- Whole blocks lose no byte. -/
theorem blocksOf_flatten {e : Width} : ∀ (q : Nat) (s : List Byte), s.length = q * blockSize e →
    (blocksOf e s).flatten = s
  | 0, s, h => by
    have nil : s = [] := List.eq_nil_of_length_eq_zero (by simpa using h)
    subst nil
    simp [blocksOf]
  | q + 1, s, h => by
    have size : s.length = q * blockSize e + blockSize e := by rw [h, Nat.add_mul, Nat.one_mul]
    have first : (s.take (q * blockSize e)).length = q * blockSize e := by
      rw [List.length_take]; omega
    have last : (s.drop (q * blockSize e)).length = blockSize e := by
      rw [List.length_drop]; omega
    conv_lhs => rw [← List.take_append_drop (q * blockSize e) s]
    rw [blocksOf_append _ first, List.flatten_append, blocksOf_flatten q _ first, blocksOf_one last]
    simp

/-! ### The padded message (R142, R144) -/

theorem paddedMessage_length (e : Width) (s : List Byte) (len : Nat) :
    (paddedMessage e s len).length = s.length + 1 + zeroFill e s.length + lengthFieldSize e := by
  simp [paddedMessage]
  omega

/-- How many blocks a padded tail makes. -/
theorem paddedMessage_blocks {e : Width} {s : List Byte} (len : Nat) (h : s.length < blockSize e) :
    (s.length + 1 + lengthFieldSize e ≤ blockSize e → (paddedMessage e s len).length = 1 * blockSize e) ∧
    (blockSize e < s.length + 1 + lengthFieldSize e → (paddedMessage e s len).length = 2 * blockSize e) := by
  rw [paddedMessage_length]
  generalize s.length = n at *
  cases e <;> simp only [zeroFill, blockSize, lengthFieldSize, Width.bits] at h ⊢ <;> omega

/-- Whole blocks before the tail do not change the zero fill. -/
theorem zeroFill_add_blocks (e : Width) (q n : Nat) : zeroFill e (q * blockSize e + n) = zeroFill e n := by
  unfold zeroFill
  rw [Nat.add_comm (q * blockSize e), Nat.add_mul_mod_self_right]

/-- Padding a message is padding its tail. -/
theorem paddedMessage_append {e : Width} (a b : List Byte) {q : Nat} (len : Nat) (h : a.length = q * blockSize e) :
    paddedMessage e (a ++ b) len = a ++ paddedMessage e b len := by
  have same : zeroFill e (a ++ b).length = zeroFill e b.length := by
    rw [List.length_append, h, zeroFill_add_blocks]
  simp only [paddedMessage, same, List.append_assoc]

end Sys2Proof.Machine
end

