-- ==== Sys2Proof/Laws/Memory.lean ====
section
/-! SUPPORT. The laws of the cells of BUF: what a write leaves in every cell, that it keeps the canonical form,
and that canonical memories that read alike are equal. -/

namespace Sys2Proof.Machine

open Sys2Proof

@[simp] theorem Memory.read_nil (i : Nat) : Memory.read [] i = Memory.unlisted := rfl

theorem Memory.wfFrom_cons {low : Nat} {c : Host.Cell} {rest : Memory} :
    Memory.wfFrom low (c :: rest) = true ↔
      low ≤ c.1 ∧ c.1 < bufCells ∧ c.2 ≠ Memory.unlisted ∧ Memory.wfFrom (c.1 + 1) rest = true := by
  obtain ⟨a, b⟩ := c
  simp [Memory.wfFrom, and_assoc]

theorem Memory.wfFrom_le {low low' : Nat} {m : Memory} (le : low' ≤ low) (wf : Memory.wfFrom low m = true) :
    Memory.wfFrom low' m = true := by
  cases m with
  | nil => rfl
  | cons c rest =>
    rw [Memory.wfFrom_cons] at wf ⊢
    exact ⟨le.trans wf.1, wf.2⟩

/-- A cell below the lowest listed address reads as an unlisted cell. -/
theorem Memory.read_below {low i : Nat} {m : Memory} (wf : Memory.wfFrom low m = true) (below : i < low) :
    Memory.read m i = Memory.unlisted := by
  induction m generalizing low with
  | nil => rfl
  | cons c rest ih =>
    obtain ⟨a, b⟩ := c
    obtain ⟨le, -, -, wfRest⟩ := Memory.wfFrom_cons.mp wf
    have ne : a ≠ i := by simp only at le; omega
    rw [Memory.read, if_neg ne]
    exact ih wfRest (by simp only at le ⊢; omega)

/-- A store is read back. -/
theorem Memory.read_write_same {low i : Nat} {m : Memory} (b : Byte) (wf : Memory.wfFrom low m = true) :
    Memory.read (Memory.write m i b) i = b := by
  induction m generalizing low with
  | nil =>
    unfold Memory.write
    split
    · simp [*]
    · simp [Memory.read]
  | cons c rest ih =>
    obtain ⟨a, d⟩ := c
    obtain ⟨-, -, -, wfRest⟩ := Memory.wfFrom_cons.mp wf
    unfold Memory.write
    split
    · next lt =>
      split
      · next hb =>
        rw [Memory.read, if_neg (by omega), hb]
        exact Memory.read_below wfRest (by simp only; omega)
      · simp [Memory.read]
    · split
      · next eq =>
        split
        · next hb =>
          rw [hb]
          exact Memory.read_below wfRest (by simp only; omega)
        · simp [Memory.read]
      · next ne =>
        rw [Memory.read, if_neg (by omega)]
        exact ih wfRest

/-- Every other cell keeps its byte. -/
theorem Memory.read_write_other {i j : Nat} (m : Memory) (b : Byte) (ne : j ≠ i) :
    Memory.read (Memory.write m i b) j = Memory.read m j := by
  induction m with
  | nil =>
    unfold Memory.write
    split
    · rfl
    · simp [Memory.read, Ne.symm ne]
  | cons c rest ih =>
    obtain ⟨a, d⟩ := c
    unfold Memory.write
    split
    · split
      · rfl
      · rw [Memory.read, if_neg (Ne.symm ne)]
    · split
      · next eq =>
        subst eq
        split
        · rw [Memory.read, if_neg (Ne.symm ne)]
        · rw [Memory.read, if_neg (Ne.symm ne), Memory.read, if_neg (Ne.symm ne)]
      · rw [Memory.read, Memory.read, ih]

/-- A store into a cell of BUF keeps the canonical form. -/
theorem Memory.write_wfFrom {low i : Nat} {m : Memory} (b : Byte) (lowLe : low ≤ i) (inside : i < bufCells)
    (wf : Memory.wfFrom low m = true) : Memory.wfFrom low (Memory.write m i b) = true := by
  induction m generalizing low with
  | nil =>
    unfold Memory.write
    split
    · rfl
    · next hb => exact Memory.wfFrom_cons.mpr ⟨lowLe, inside, hb, rfl⟩
  | cons c rest ih =>
    obtain ⟨a, d⟩ := c
    have parts := Memory.wfFrom_cons.mp wf
    obtain ⟨le, lt, nz, wfRest⟩ := parts
    simp only at le lt nz wfRest
    unfold Memory.write
    split
    · split
      · exact wf
      · next hi hb =>
        exact Memory.wfFrom_cons.mpr ⟨lowLe, inside, hb, Memory.wfFrom_cons.mpr ⟨hi, lt, nz, wfRest⟩⟩
    · split
      · next eq =>
        subst eq
        split
        · exact Memory.wfFrom_le (by omega) wfRest
        · next hb => exact Memory.wfFrom_cons.mpr ⟨le, inside, hb, wfRest⟩
      · exact Memory.wfFrom_cons.mpr ⟨le, lt, nz, ih (by simp only; omega) wfRest⟩

theorem Memory.write_wf {i : Nat} {m : Memory} (b : Byte) (inside : i < bufCells) (wf : Memory.wf m = true) :
    Memory.wf (Memory.write m i b) = true :=
  Memory.write_wfFrom b (Nat.zero_le i) inside wf

/-- In canonical form, memories that read alike are the same list. -/
theorem Memory.eq_of_read_eq {low : Nat} {m m' : Memory} (wf : Memory.wfFrom low m = true)
    (wf' : Memory.wfFrom low m' = true) (same : ∀ i, Memory.read m i = Memory.read m' i) : m = m' := by
  induction m generalizing low m' with
  | nil =>
    cases m' with
    | nil => rfl
    | cons c rest =>
      obtain ⟨-, -, nz, -⟩ := Memory.wfFrom_cons.mp wf'
      have := same c.1
      simp [Memory.read] at this
      exact absurd this.symm nz
  | cons c rest ih =>
    obtain ⟨a, b⟩ := c
    obtain ⟨-, -, nz, wfRest⟩ := Memory.wfFrom_cons.mp wf
    simp only at nz wfRest
    cases m' with
    | nil =>
      have := same a
      simp [Memory.read] at this
      exact absurd this nz
    | cons c' rest' =>
      obtain ⟨a', b'⟩ := c'
      obtain ⟨-, -, nz', wfRest'⟩ := Memory.wfFrom_cons.mp wf'
      simp only at nz' wfRest'
      have first : a = a' := by
        rcases Nat.lt_trichotomy a a' with lt | eq | gt
        · have := same a
          rw [Memory.read, if_pos rfl, Memory.read, if_neg (by omega),
            Memory.read_below wfRest' (by omega)] at this
          exact absurd this nz
        · exact eq
        · have := same a'
          rw [Memory.read, if_neg (by omega), Memory.read_below wfRest (by omega), Memory.read,
            if_pos rfl] at this
          exact absurd this.symm nz'
      subst first
      have byte : b = b' := by simpa [Memory.read] using same a
      subst byte
      have rests : rest = rest' := by
        refine ih wfRest wfRest' fun i => ?_
        by_cases eq : a = i
        · subst eq
          rw [Memory.read_below wfRest (by omega), Memory.read_below wfRest' (by omega)]
        · simpa [Memory.read, eq] using same i
      rw [rests]

/-! ### Runs of cells -/

@[simp] theorem State.cells_length (s : State) (i n : Nat) : (s.cells i n).length = n := by
  simp [State.cells]

theorem State.cells_getElem (s : State) {i n j : Nat} (h : j < (s.cells i n).length) :
    (s.cells i n)[j] = Memory.read s.buf (i + j) := by
  simp [State.cells]

/-- A run of cells depends on those cells alone. -/
theorem State.cells_congr {s t : State} {i n : Nat}
    (same : ∀ j, j < n → Memory.read s.buf (i + j) = Memory.read t.buf (i + j)) : s.cells i n = t.cells i n := by
  apply List.map_congr_left
  intro j hj
  exact same j (List.mem_range.mp hj)

/-- Storing the next byte extends the run of cells by it. -/
theorem State.cells_memWrite_next {s : State} {n : Nat} (b : Byte) (wf : Memory.wf s.buf = true) :
    (s.memWrite n b).cells 0 (n + 1) = s.cells 0 n ++ [b] := by
  have last : Memory.read (Memory.write s.buf n b) n = b := Memory.read_write_same (low := 0) b wf
  rw [State.cells, List.range_succ, List.map_append]
  congr 1
  · refine List.map_congr_left fun j hj => ?_
    have : j < n := List.mem_range.mp hj
    exact Memory.read_write_other s.buf b (by omega)
  · simpa [State.memWrite, State.setBuf] using last

end Sys2Proof.Machine
end

