-- ==== Sys2Proof/Laws/State.lean ====
section
/-! SUPPORT. One lemma per field per update, each true by rfl, so that no later proof unfolds a record update. -/

namespace Sys2Proof.Machine

open Sys2Proof

@[simp] theorem setPhase_phase (s : State) (p : Phase) : (s.setPhase p).phase = p := rfl
@[simp] theorem setPhase_cfg (s : State) (p : Phase) : (s.setPhase p).cfg = s.cfg := rfl
@[simp] theorem setPhase_h (s : State) (p : Phase) : (s.setPhase p).h = s.h := rfl
@[simp] theorem setPhase_buf (s : State) (p : Phase) : (s.setPhase p).buf = s.buf := rfl
@[simp] theorem setPhase_bufLen (s : State) (p : Phase) : (s.setPhase p).bufLen = s.bufLen := rfl
@[simp] theorem setPhase_len (s : State) (p : Phase) : (s.setPhase p).len = s.len := rfl
@[simp] theorem setPhase_input (s : State) (p : Phase) : (s.setPhase p).input = s.input := rfl
@[simp] theorem setPhase_response (s : State) (p : Phase) : (s.setPhase p).response = s.response := rfl

@[simp] theorem setCfg_phase (s : State) (v : Variant) : (s.setCfg v).phase = s.phase := rfl
@[simp] theorem setCfg_cfg (s : State) (v : Variant) : (s.setCfg v).cfg = v := rfl
@[simp] theorem setCfg_h (s : State) (v : Variant) : (s.setCfg v).h = s.h := rfl
@[simp] theorem setCfg_buf (s : State) (v : Variant) : (s.setCfg v).buf = s.buf := rfl
@[simp] theorem setCfg_bufLen (s : State) (v : Variant) : (s.setCfg v).bufLen = s.bufLen := rfl
@[simp] theorem setCfg_len (s : State) (v : Variant) : (s.setCfg v).len = s.len := rfl
@[simp] theorem setCfg_input (s : State) (v : Variant) : (s.setCfg v).input = s.input := rfl
@[simp] theorem setCfg_response (s : State) (v : Variant) : (s.setCfg v).response = s.response := rfl

@[simp] theorem setH_phase (s : State) (x : HashWords (BitVec 64)) : (s.setH x).phase = s.phase := rfl
@[simp] theorem setH_cfg (s : State) (x : HashWords (BitVec 64)) : (s.setH x).cfg = s.cfg := rfl
@[simp] theorem setH_h (s : State) (x : HashWords (BitVec 64)) : (s.setH x).h = x := rfl
@[simp] theorem setH_buf (s : State) (x : HashWords (BitVec 64)) : (s.setH x).buf = s.buf := rfl
@[simp] theorem setH_bufLen (s : State) (x : HashWords (BitVec 64)) : (s.setH x).bufLen = s.bufLen := rfl
@[simp] theorem setH_len (s : State) (x : HashWords (BitVec 64)) : (s.setH x).len = s.len := rfl
@[simp] theorem setH_input (s : State) (x : HashWords (BitVec 64)) : (s.setH x).input = s.input := rfl
@[simp] theorem setH_response (s : State) (x : HashWords (BitVec 64)) : (s.setH x).response = s.response := rfl

@[simp] theorem setBuf_phase (s : State) (m : Memory) : (s.setBuf m).phase = s.phase := rfl
@[simp] theorem setBuf_cfg (s : State) (m : Memory) : (s.setBuf m).cfg = s.cfg := rfl
@[simp] theorem setBuf_h (s : State) (m : Memory) : (s.setBuf m).h = s.h := rfl
@[simp] theorem setBuf_buf (s : State) (m : Memory) : (s.setBuf m).buf = m := rfl
@[simp] theorem setBuf_bufLen (s : State) (m : Memory) : (s.setBuf m).bufLen = s.bufLen := rfl
@[simp] theorem setBuf_len (s : State) (m : Memory) : (s.setBuf m).len = s.len := rfl
@[simp] theorem setBuf_input (s : State) (m : Memory) : (s.setBuf m).input = s.input := rfl
@[simp] theorem setBuf_response (s : State) (m : Memory) : (s.setBuf m).response = s.response := rfl

@[simp] theorem setBufLen_phase (s : State) (n : BitVec 7) : (s.setBufLen n).phase = s.phase := rfl
@[simp] theorem setBufLen_cfg (s : State) (n : BitVec 7) : (s.setBufLen n).cfg = s.cfg := rfl
@[simp] theorem setBufLen_h (s : State) (n : BitVec 7) : (s.setBufLen n).h = s.h := rfl
@[simp] theorem setBufLen_buf (s : State) (n : BitVec 7) : (s.setBufLen n).buf = s.buf := rfl
@[simp] theorem setBufLen_bufLen (s : State) (n : BitVec 7) : (s.setBufLen n).bufLen = n := rfl
@[simp] theorem setBufLen_len (s : State) (n : BitVec 7) : (s.setBufLen n).len = s.len := rfl
@[simp] theorem setBufLen_input (s : State) (n : BitVec 7) : (s.setBufLen n).input = s.input := rfl
@[simp] theorem setBufLen_response (s : State) (n : BitVec 7) : (s.setBufLen n).response = s.response := rfl

@[simp] theorem setLen_phase (s : State) (n : BitVec 128) : (s.setLen n).phase = s.phase := rfl
@[simp] theorem setLen_cfg (s : State) (n : BitVec 128) : (s.setLen n).cfg = s.cfg := rfl
@[simp] theorem setLen_h (s : State) (n : BitVec 128) : (s.setLen n).h = s.h := rfl
@[simp] theorem setLen_buf (s : State) (n : BitVec 128) : (s.setLen n).buf = s.buf := rfl
@[simp] theorem setLen_bufLen (s : State) (n : BitVec 128) : (s.setLen n).bufLen = s.bufLen := rfl
@[simp] theorem setLen_len (s : State) (n : BitVec 128) : (s.setLen n).len = n := rfl
@[simp] theorem setLen_input (s : State) (n : BitVec 128) : (s.setLen n).input = s.input := rfl
@[simp] theorem setLen_response (s : State) (n : BitVec 128) : (s.setLen n).response = s.response := rfl

@[simp] theorem setInput_phase (s : State) (evs : List HostEvent) : (s.setInput evs).phase = s.phase := rfl
@[simp] theorem setInput_cfg (s : State) (evs : List HostEvent) : (s.setInput evs).cfg = s.cfg := rfl
@[simp] theorem setInput_h (s : State) (evs : List HostEvent) : (s.setInput evs).h = s.h := rfl
@[simp] theorem setInput_buf (s : State) (evs : List HostEvent) : (s.setInput evs).buf = s.buf := rfl
@[simp] theorem setInput_bufLen (s : State) (evs : List HostEvent) : (s.setInput evs).bufLen = s.bufLen := rfl
@[simp] theorem setInput_len (s : State) (evs : List HostEvent) : (s.setInput evs).len = s.len := rfl
@[simp] theorem setInput_input (s : State) (evs : List HostEvent) : (s.setInput evs).input = evs := rfl
@[simp] theorem setInput_response (s : State) (evs : List HostEvent) : (s.setInput evs).response = s.response := rfl

@[simp] theorem setResponse_phase (s : State) (r : Option Response) : (s.setResponse r).phase = s.phase := rfl
@[simp] theorem setResponse_cfg (s : State) (r : Option Response) : (s.setResponse r).cfg = s.cfg := rfl
@[simp] theorem setResponse_h (s : State) (r : Option Response) : (s.setResponse r).h = s.h := rfl
@[simp] theorem setResponse_buf (s : State) (r : Option Response) : (s.setResponse r).buf = s.buf := rfl
@[simp] theorem setResponse_bufLen (s : State) (r : Option Response) : (s.setResponse r).bufLen = s.bufLen := rfl
@[simp] theorem setResponse_len (s : State) (r : Option Response) : (s.setResponse r).len = s.len := rfl
@[simp] theorem setResponse_input (s : State) (r : Option Response) : (s.setResponse r).input = s.input := rfl
@[simp] theorem setResponse_response (s : State) (r : Option Response) : (s.setResponse r).response = r := rfl

@[simp] theorem memWrite_phase (s : State) (i : Nat) (b : Byte) : (s.memWrite i b).phase = s.phase := rfl
@[simp] theorem memWrite_cfg (s : State) (i : Nat) (b : Byte) : (s.memWrite i b).cfg = s.cfg := rfl
@[simp] theorem memWrite_h (s : State) (i : Nat) (b : Byte) : (s.memWrite i b).h = s.h := rfl
@[simp] theorem memWrite_buf (s : State) (i : Nat) (b : Byte) : (s.memWrite i b).buf = Memory.write s.buf i b := rfl
@[simp] theorem memWrite_bufLen (s : State) (i : Nat) (b : Byte) : (s.memWrite i b).bufLen = s.bufLen := rfl
@[simp] theorem memWrite_len (s : State) (i : Nat) (b : Byte) : (s.memWrite i b).len = s.len := rfl
@[simp] theorem memWrite_input (s : State) (i : Nat) (b : Byte) : (s.memWrite i b).input = s.input := rfl
@[simp] theorem memWrite_response (s : State) (i : Nat) (b : Byte) : (s.memWrite i b).response = s.response := rfl

@[simp] theorem respondOk_phase (s : State) (d : List Byte) : (s.respondOk d).phase = s.phase := rfl
@[simp] theorem respondOk_cfg (s : State) (d : List Byte) : (s.respondOk d).cfg = s.cfg := rfl
@[simp] theorem respondOk_h (s : State) (d : List Byte) : (s.respondOk d).h = s.h := rfl
@[simp] theorem respondOk_buf (s : State) (d : List Byte) : (s.respondOk d).buf = s.buf := rfl
@[simp] theorem respondOk_bufLen (s : State) (d : List Byte) : (s.respondOk d).bufLen = s.bufLen := rfl
@[simp] theorem respondOk_len (s : State) (d : List Byte) : (s.respondOk d).len = s.len := rfl
@[simp] theorem respondOk_input (s : State) (d : List Byte) : (s.respondOk d).input = s.input := rfl
@[simp] theorem respondOk_response (s : State) (d : List Byte) : (s.respondOk d).response = some ⟨.ok, d⟩ := rfl

@[simp] theorem raiseError_phase (s : State) (e : Status) : (s.raiseError e).phase = s.phase := rfl
@[simp] theorem raiseError_cfg (s : State) (e : Status) : (s.raiseError e).cfg = s.cfg := rfl
@[simp] theorem raiseError_h (s : State) (e : Status) : (s.raiseError e).h = s.h := rfl
@[simp] theorem raiseError_buf (s : State) (e : Status) : (s.raiseError e).buf = s.buf := rfl
@[simp] theorem raiseError_bufLen (s : State) (e : Status) : (s.raiseError e).bufLen = s.bufLen := rfl
@[simp] theorem raiseError_len (s : State) (e : Status) : (s.raiseError e).len = s.len := rfl
@[simp] theorem raiseError_input (s : State) (e : Status) : (s.raiseError e).input = s.input := rfl
@[simp] theorem raiseError_response (s : State) (e : Status) : (s.raiseError e).response = some ⟨e, []⟩ := rfl

@[simp] theorem illegalCommand_phase (s : State) : (s.illegalCommand).phase = s.phase := rfl
@[simp] theorem illegalCommand_cfg (s : State) : (s.illegalCommand).cfg = s.cfg := rfl
@[simp] theorem illegalCommand_h (s : State) : (s.illegalCommand).h = s.h := rfl
@[simp] theorem illegalCommand_buf (s : State) : (s.illegalCommand).buf = s.buf := rfl
@[simp] theorem illegalCommand_bufLen (s : State) : (s.illegalCommand).bufLen = s.bufLen := rfl
@[simp] theorem illegalCommand_len (s : State) : (s.illegalCommand).len = s.len := rfl
@[simp] theorem illegalCommand_input (s : State) : (s.illegalCommand).input = s.input := rfl
@[simp] theorem illegalCommand_response (s : State) : (s.illegalCommand).response = some ⟨.illegalCommand, []⟩ := rfl

@[simp] theorem setHash_phase (s : State) {e : Width} (x : HashWords (Word e)) : (s.setHash x).phase = s.phase := rfl
@[simp] theorem setHash_cfg (s : State) {e : Width} (x : HashWords (Word e)) : (s.setHash x).cfg = s.cfg := rfl
@[simp] theorem setHash_h (s : State) {e : Width} (x : HashWords (Word e)) : (s.setHash x).h = x.map widenWord := rfl
@[simp] theorem setHash_buf (s : State) {e : Width} (x : HashWords (Word e)) : (s.setHash x).buf = s.buf := rfl
@[simp] theorem setHash_bufLen (s : State) {e : Width} (x : HashWords (Word e)) : (s.setHash x).bufLen = s.bufLen := rfl
@[simp] theorem setHash_len (s : State) {e : Width} (x : HashWords (Word e)) : (s.setHash x).len = s.len := rfl
@[simp] theorem setHash_input (s : State) {e : Width} (x : HashWords (Word e)) : (s.setHash x).input = s.input := rfl
@[simp] theorem setHash_response (s : State) {e : Width} (x : HashWords (Word e)) : (s.setHash x).response = s.response := rfl

@[simp] theorem setFill_phase (s : State) (n : Nat) : (s.setFill n).phase = s.phase := rfl
@[simp] theorem setFill_cfg (s : State) (n : Nat) : (s.setFill n).cfg = s.cfg := rfl
@[simp] theorem setFill_h (s : State) (n : Nat) : (s.setFill n).h = s.h := rfl
@[simp] theorem setFill_buf (s : State) (n : Nat) : (s.setFill n).buf = s.buf := rfl
@[simp] theorem setFill_bufLen (s : State) (n : Nat) : (s.setFill n).bufLen = BitVec.ofNat 7 n := rfl
@[simp] theorem setFill_len (s : State) (n : Nat) : (s.setFill n).len = s.len := rfl
@[simp] theorem setFill_input (s : State) (n : Nat) : (s.setFill n).input = s.input := rfl
@[simp] theorem setFill_response (s : State) (n : Nat) : (s.setFill n).response = s.response := rfl

@[simp] theorem setLength_phase (s : State) (n : Nat) : (s.setLength n).phase = s.phase := rfl
@[simp] theorem setLength_cfg (s : State) (n : Nat) : (s.setLength n).cfg = s.cfg := rfl
@[simp] theorem setLength_h (s : State) (n : Nat) : (s.setLength n).h = s.h := rfl
@[simp] theorem setLength_buf (s : State) (n : Nat) : (s.setLength n).buf = s.buf := rfl
@[simp] theorem setLength_bufLen (s : State) (n : Nat) : (s.setLength n).bufLen = s.bufLen := rfl
@[simp] theorem setLength_len (s : State) (n : Nat) : (s.setLength n).len = BitVec.ofNat 128 n := rfl
@[simp] theorem setLength_input (s : State) (n : Nat) : (s.setLength n).input = s.input := rfl
@[simp] theorem setLength_response (s : State) (n : Nat) : (s.setLength n).response = s.response := rfl

@[simp] theorem compressBlock_phase (s : State) (B : List Byte) : (s.compressBlock B).phase = s.phase := rfl
@[simp] theorem compressBlock_cfg (s : State) (B : List Byte) : (s.compressBlock B).cfg = s.cfg := rfl
@[simp] theorem compressBlock_h (s : State) (B : List Byte) : (s.compressBlock B).h = (compress s.config (s.hash s.config.width) B).map widenWord := rfl
@[simp] theorem compressBlock_buf (s : State) (B : List Byte) : (s.compressBlock B).buf = s.buf := rfl
@[simp] theorem compressBlock_bufLen (s : State) (B : List Byte) : (s.compressBlock B).bufLen = s.bufLen := rfl
@[simp] theorem compressBlock_len (s : State) (B : List Byte) : (s.compressBlock B).len = s.len := rfl
@[simp] theorem compressBlock_input (s : State) (B : List Byte) : (s.compressBlock B).input = s.input := rfl
@[simp] theorem compressBlock_response (s : State) (B : List Byte) : (s.compressBlock B).response = s.response := rfl

@[simp] theorem newObject_phase (s : State) (v : Variant) : (s.newObject v).phase = .accepting := rfl
@[simp] theorem newObject_cfg (s : State) (v : Variant) : (s.newObject v).cfg = v := rfl
@[simp] theorem newObject_h (s : State) (v : Variant) : (s.newObject v).h = (Machine.config v).initialHash.map widenWord := rfl
@[simp] theorem newObject_buf (s : State) (v : Variant) : (s.newObject v).buf = s.buf := rfl
@[simp] theorem newObject_bufLen (s : State) (v : Variant) : (s.newObject v).bufLen = BitVec.ofNat 7 0 := rfl
@[simp] theorem newObject_len (s : State) (v : Variant) : (s.newObject v).len = BitVec.ofNat 128 0 := rfl
@[simp] theorem newObject_input (s : State) (v : Variant) : (s.newObject v).input = s.input := rfl
@[simp] theorem newObject_response (s : State) (v : Variant) : (s.newObject v).response = s.response := rfl

@[simp] theorem takeReset_phase (s : State) : (s.takeReset).phase = .idle := rfl
@[simp] theorem takeReset_cfg (s : State) : (s.takeReset).cfg = .sha224 := rfl
@[simp] theorem takeReset_h (s : State) : (s.takeReset).h = ⟨0, 0, 0, 0, 0, 0, 0, 0⟩ := rfl
@[simp] theorem takeReset_buf (s : State) : (s.takeReset).buf = [] := rfl
@[simp] theorem takeReset_bufLen (s : State) : (s.takeReset).bufLen = 0 := rfl
@[simp] theorem takeReset_len (s : State) : (s.takeReset).len = 0 := rfl
@[simp] theorem takeReset_input (s : State) : (s.takeReset).input = s.input := rfl
@[simp] theorem takeReset_response (s : State) : (s.takeReset).response = none := rfl

@[simp] theorem presentFirst_phase (s : State) (cw : CommandWord) : (s.presentFirst cw).phase = s.phase := rfl
@[simp] theorem presentFirst_cfg (s : State) (cw : CommandWord) : (s.presentFirst cw).cfg = s.cfg := rfl
@[simp] theorem presentFirst_h (s : State) (cw : CommandWord) : (s.presentFirst cw).h = s.h := rfl
@[simp] theorem presentFirst_buf (s : State) (cw : CommandWord) : (s.presentFirst cw).buf = s.buf := rfl
@[simp] theorem presentFirst_bufLen (s : State) (cw : CommandWord) : (s.presentFirst cw).bufLen = s.bufLen := rfl
@[simp] theorem presentFirst_len (s : State) (cw : CommandWord) : (s.presentFirst cw).len = s.len := rfl
@[simp] theorem presentFirst_input (s : State) (cw : CommandWord) : (s.presentFirst cw).input = .command cw :: s.input := rfl
@[simp] theorem presentFirst_response (s : State) (cw : CommandWord) : (s.presentFirst cw).response = s.response := rfl

end Sys2Proof.Machine
end

