-- ==== Sys2Proof/Laws/Registers.lean ====
section
/-! SUPPORT. The registers at their logical widths: what is written is read back, every index stays in its space
(R56), and which fields each logical read depends on. -/

namespace Sys2Proof.Machine

open Sys2Proof

/-! ### Sizes (R4) -/

theorem blockSize_pos (e : Width) : 0 < blockSize e := by cases e <;> decide

theorem blockSize_le (e : Width) : blockSize e ≤ bufCells := by cases e <;> decide

theorem blockSize_eq (e : Width) : blockSize e = 16 * wordBytes e := by cases e <;> rfl

theorem bits_eq (e : Width) : e.bits = 8 * wordBytes e := by cases e <;> rfl

theorem bits_le (e : Width) : e.bits ≤ 64 := by cases e <;> decide

theorem lengthBits_le (e : Width) : lengthBits e ≤ 128 := by cases e <;> decide

/-- The counter's modulus is a whole number of blocks' bits, so a wrap keeps the position in the block. -/
theorem blockBits_dvd (e : Width) : 8 * blockSize e ∣ 2 ^ lengthBits e := by cases e <;> decide

theorem lengthField_lt (e : Width) : lengthFieldSize e + 1 ≤ blockSize e := by cases e <;> decide

/-! ### Words in 64-bit registers (R34) -/

@[simp] theorem narrow_widen {e : Width} (x : Word e) : narrowWord e (widenWord x) = x := by
  apply BitVec.eq_of_toNat_eq
  have lt := x.isLt
  have le : 2 ^ e.bits ≤ 2 ^ 64 := Nat.pow_le_pow_right (by decide) (bits_le e)
  simp only [narrowWord, widenWord, BitVec.toNat_setWidth]
  rw [Nat.mod_eq_of_lt (show x.toNat < 2 ^ 64 by omega), Nat.mod_eq_of_lt lt]

theorem widen_toNat {e : Width} (x : Word e) : (widenWord x).toNat = x.toNat := by
  have lt := x.isLt
  have le : 2 ^ e.bits ≤ 2 ^ 64 := Nat.pow_le_pow_right (by decide) (bits_le e)
  simp only [widenWord, BitVec.toNat_setWidth]
  exact Nat.mod_eq_of_lt (by omega)

theorem HashWords.ext_list {α : Type} {x y : HashWords α} (h : x.toList = y.toList) : x = y := by
  cases x; cases y
  simpa [HashWords.toList] using h

/-- Equal words as unsigned integers are equal words. -/
theorem HashWords.eq_of_toNat {e : Width} {x y : HashWords (Word e)}
    (h : x.toList.map BitVec.toNat = y.toList.map BitVec.toNat) : x = y :=
  HashWords.ext_list (List.map_injective_iff.mpr (fun _ _ => BitVec.eq_of_toNat_eq) h)

@[simp] theorem HashWords.map_toList {α β : Type} (f : α → β) (x : HashWords α) :
    (x.map f).toList = x.toList.map f := rfl

@[simp] theorem HashWords.toList_length {α : Type} (x : HashWords α) : x.toList.length = 8 := rfl

@[simp] theorem hash_setHash (s : State) {e : Width} (x : HashWords (Word e)) : (s.setHash x).hash e = x := by
  cases x
  simp [State.setHash, State.hash, HashWords.map, State.setH]

/-- A written hash state is zero above the word width (R34). -/
theorem setHash_small (s : State) {e : Width} (x : HashWords (Word e)) :
    ∀ y ∈ (s.setHash x).h.toList, y.toNat < 2 ^ e.bits := by
  intro y hy
  simp only [setHash_h, HashWords.map_toList, List.mem_map] at hy
  obtain ⟨z, -, rfl⟩ := hy
  rw [widen_toNat]
  exact z.isLt

/-! ### BUFLEN and LEN -/

theorem fill_lt (s : State) : s.fill < blockSize s.width := Nat.mod_lt _ (blockSize_pos _)

/-- No index reaches past the last cell (R56). -/
theorem fill_lt_cells (s : State) : s.fill < bufCells := (fill_lt s).trans_le (blockSize_le _)

theorem fill_of_bufLen {s : State} {n : Nat} (h : s.bufLen = BitVec.ofNat 7 n) (lt : n < blockSize s.width) :
    s.fill = n := by
  have := blockSize_le s.width
  have seven : n < 2 ^ 7 := lt.trans_le this
  rw [State.fill, h, BitVec.toNat_ofNat, Nat.mod_eq_of_lt seven, Nat.mod_eq_of_lt lt]

theorem length_lt (s : State) : s.length < 2 ^ lengthBits s.width := Nat.mod_lt _ (Nat.two_pow_pos _)

theorem length_of_len {s : State} {n : Nat} (h : s.len = BitVec.ofNat 128 n) (lt : n < 2 ^ lengthBits s.width) :
    s.length = n := by
  have : 2 ^ lengthBits s.width ≤ 2 ^ 128 := Nat.pow_le_pow_right (by decide) (lengthBits_le _)
  have wide : n < 2 ^ 128 := lt.trans_le this
  rw [State.length, h, BitVec.toNat_ofNat, Nat.mod_eq_of_lt wide, Nat.mod_eq_of_lt lt]

/-- A fill level in range is what BUFLEN holds. -/
theorem fill_eq {s : State} (h : s.bufLen.toNat < blockSize s.width) : s.fill = s.bufLen.toNat :=
  Nat.mod_eq_of_lt h

/-- A counter in range is what LEN holds. -/
theorem length_eq {s : State} (h : s.len.toNat < 2 ^ lengthBits s.width) : s.length = s.len.toNat :=
  Nat.mod_eq_of_lt h

theorem toNat_ofNat_bufLen {e : Width} {n : Nat} (h : n < blockSize e) : (BitVec.ofNat 7 n).toNat = n := by
  have le := blockSize_le e
  rw [BitVec.toNat_ofNat, Nat.mod_eq_of_lt (show n < 2 ^ 7 from h.trans_le le)]

theorem toNat_ofNat_len {e : Width} {n : Nat} (h : n < 2 ^ lengthBits e) : (BitVec.ofNat 128 n).toNat = n := by
  have le : 2 ^ lengthBits e ≤ 2 ^ 128 := Nat.pow_le_pow_right (by decide) (lengthBits_le _)
  rw [BitVec.toNat_ofNat, Nat.mod_eq_of_lt (h.trans_le le)]

/-- One more byte moves the position in the block by one, through a wrap of the counter too. -/
theorem counter_position {e : Width} {n k : Nat} (hk : k < blockSize e) (bytes : n % 8 = 0)
    (h : n / 8 % blockSize e = k) :
    (n + 8) % 2 ^ lengthBits e / 8 % blockSize e = if k + 1 = blockSize e then 0 else k + 1 := by
  cases e with
  | w32 =>
    have hk : k < 64 := hk
    have h : n / 8 % 64 = k := h
    show (n + 8) % 18446744073709551616 / 8 % 64 = if k + 1 = 64 then 0 else k + 1
    split <;> omega
  | w64 =>
    have hk : k < 128 := hk
    have h : n / 8 % 128 = k := h
    show (n + 8) % 340282366920938463463374607431768211456 / 8 % 128 = if k + 1 = 128 then 0 else k + 1
    split <;> omega

/-- The counter stays a whole number of bytes. -/
theorem counter_bytes {e : Width} {n : Nat} (bytes : n % 8 = 0) : (n + 8) % 2 ^ lengthBits e % 8 = 0 := by
  cases e <;> simp only [lengthBits, lengthFieldSize] <;> omega

/-! ### What each logical read depends on -/

theorem config_congr {s t : State} (h : t.cfg = s.cfg) : t.config = s.config := by
  simp only [State.config, h]

theorem width_congr {s t : State} (h : t.cfg = s.cfg) : t.width = s.width := by
  simp only [State.width, config_congr h]

theorem hash_congr {s t : State} (h : t.h = s.h) (e : Width) : t.hash e = s.hash e := by
  simp only [State.hash, h]

theorem fill_congr {s t : State} (hc : t.cfg = s.cfg) (h : t.bufLen = s.bufLen) : t.fill = s.fill := by
  simp only [State.fill, width_congr hc, h]

theorem length_congr {s t : State} (hc : t.cfg = s.cfg) (h : t.len = s.len) : t.length = s.length := by
  simp only [State.length, width_congr hc, h]

theorem cells_eq_of_buf {s t : State} (h : t.buf = s.buf) (i n : Nat) : t.cells i n = s.cells i n := by
  simp only [State.cells, h]

@[simp] theorem tail_length (s : State) : s.tail.length = s.fill := by
  simp [State.tail]

@[simp] theorem block_length (s : State) : s.block.length = blockSize s.width := by
  simp [State.block]

end Sys2Proof.Machine
end

