-- ==== Sys2Proof/Laws/Commands.lean ====
section
/-! SUPPORT. What each command does, once and for all: the equation of its meaning in each phase, and what its
effect leaves in every field. Later proofs cite these and do not unfold the meanings. -/

namespace Sys2Proof.Machine

open Sys2Proof

/-! ### The equation of each meaning -/

theorem exec_init (v : Variant) (s : State) : exec (.init v) s = .next ((s.newObject v).respondOk []) := rfl

theorem exec_append_accepting {s : State} (b : Byte) (h : s.phase = .accepting) :
    exec (.append b) s = .next ((s.acceptByte b).respondOk []) := by
  simp [exec, execAppend, whenAccepting, h]

theorem exec_append0_accepting {s : State} (h : s.phase = .accepting) :
    exec .append0 s = .next (s.respondOk []) := by
  simp [exec, execAppend0, whenAccepting, h]

theorem exec_finalize_accepting {s : State} (h : s.phase = .accepting) :
    exec .finalize s = .next (s.finish.respondOk s.finish.digest) := by
  simp [exec, execFinalize, whenAccepting, h]

theorem exec_append_other {s : State} (b : Byte) (h : s.phase ≠ .accepting) :
    exec (.append b) s = .next (s.raiseError .invalidState) := by
  simp [exec, execAppend, whenAccepting, h]

theorem exec_append0_other {s : State} (h : s.phase ≠ .accepting) :
    exec .append0 s = .next (s.raiseError .invalidState) := by
  simp [exec, execAppend0, whenAccepting, h]

theorem exec_finalize_other {s : State} (h : s.phase ≠ .accepting) :
    exec .finalize s = .next (s.raiseError .invalidState) := by
  simp [exec, execFinalize, whenAccepting, h]

theorem exec_reserved (x : BitVec 14) (s : State) :
    exec (.reservedOp00 x) s = .next (s.raiseError .illegalCommand) := rfl

/-- Everything an instruction can do, once: it always answers a next state, which is one of these. -/
theorem exec_cases (i : Instr) (s : State) :
    ∃ t, exec i s = .next t ∧
      ((∃ v, i = .init v ∧ t = (s.newObject v).respondOk []) ∨
       (∃ b, i = .append b ∧ s.phase = .accepting ∧ t = (s.acceptByte b).respondOk []) ∨
       (i = .append0 ∧ s.phase = .accepting ∧ t = s.respondOk []) ∨
       (i = .finalize ∧ s.phase = .accepting ∧ t = s.finish.respondOk s.finish.digest) ∨
       ((∀ v, i ≠ .init v) ∧ i.wellFormed = true ∧ s.phase ≠ .accepting ∧ t = s.raiseError .invalidState) ∨
       (i.wellFormed = false ∧ t = s.raiseError .illegalCommand)) := by
  cases i with
  | init v => exact ⟨_, exec_init v s, .inl ⟨v, rfl, rfl⟩⟩
  | append b =>
    by_cases h : s.phase = .accepting
    · exact ⟨_, exec_append_accepting b h, .inr (.inl ⟨b, rfl, h, rfl⟩)⟩
    · exact ⟨_, exec_append_other b h, by simp [Instr.wellFormed, h]⟩
  | append0 =>
    by_cases h : s.phase = .accepting
    · exact ⟨_, exec_append0_accepting h, .inr (.inr (.inl ⟨rfl, h, rfl⟩))⟩
    · exact ⟨_, exec_append0_other h, by simp [Instr.wellFormed, h]⟩
  | finalize =>
    by_cases h : s.phase = .accepting
    · exact ⟨_, exec_finalize_accepting h, .inr (.inr (.inr (.inl ⟨rfl, h, rfl⟩)))⟩
    · exact ⟨_, exec_finalize_other h, by simp [Instr.wellFormed, h]⟩
  | reservedOp00 x => exact ⟨_, exec_reserved x s, by simp [Instr.wellFormed]⟩

/-! ### One compression (R130) -/

theorem hash_compressBlock (s : State) (B : List Byte) :
    (s.compressBlock B).hash s.config.width = compress s.config (s.hash s.config.width) B :=
  hash_setHash s _

theorem compressBlock_small (s : State) (B : List Byte) :
    ∀ y ∈ (s.compressBlock B).h.toList, y.toNat < 2 ^ s.width.bits :=
  setHash_small s _

/-- Several compressions change H alone. -/
theorem foldl_compressBlock_frame (blocks : List (List Byte)) : ∀ s : State,
    (blocks.foldl State.compressBlock s).phase = s.phase ∧
    (blocks.foldl State.compressBlock s).cfg = s.cfg ∧
    (blocks.foldl State.compressBlock s).buf = s.buf ∧
    (blocks.foldl State.compressBlock s).bufLen = s.bufLen ∧
    (blocks.foldl State.compressBlock s).len = s.len ∧
    (blocks.foldl State.compressBlock s).input = s.input ∧
    (blocks.foldl State.compressBlock s).response = s.response := by
  induction blocks with
  | nil => intro s; simp
  | cons B rest ih => intro s; simpa using ih (s.compressBlock B)

/-- Several compressions, in order, into the hash state of one variant. -/
theorem hash_foldl_compressBlock {v : Variant} (blocks : List (List Byte)) : ∀ {s : State}, s.cfg = v →
    (blocks.foldl State.compressBlock s).hash (Machine.config v).width =
      compressAll (Machine.config v) (s.hash (Machine.config v).width) blocks := by
  induction blocks with
  | nil => intro s _; rfl
  | cons B rest ih =>
    intro s h
    subst h
    rw [List.foldl_cons, ih (compressBlock_cfg s B)]
    exact congrArg (fun x => compressAll (Machine.config s.cfg) x rest) (hash_compressBlock s B)

theorem foldl_compressBlock_small (blocks : List (List Byte)) : ∀ {s : State},
    (∀ y ∈ s.h.toList, y.toNat < 2 ^ s.width.bits) →
    ∀ y ∈ (blocks.foldl State.compressBlock s).h.toList, y.toNat < 2 ^ s.width.bits := by
  induction blocks with
  | nil => intro s h; exact h
  | cons B rest ih =>
    intro s _
    exact ih (s := s.compressBlock B) (compressBlock_small s B)

/-! ### APPEND b (R152) -/

section AcceptByte

variable (s : State) (b : Byte)

theorem acceptByte_phase : (s.acceptByte b).phase = s.phase := by
  unfold State.acceptByte; dsimp only; split <;> simp

@[simp] theorem acceptByte_cfg : (s.acceptByte b).cfg = s.cfg := by
  unfold State.acceptByte; dsimp only; split <;> simp

@[simp] theorem acceptByte_buf : (s.acceptByte b).buf = Memory.write s.buf s.fill b := by
  unfold State.acceptByte; dsimp only; split <;> simp

@[simp] theorem acceptByte_len :
    (s.acceptByte b).len = BitVec.ofNat 128 ((s.length + 8) % 2 ^ lengthBits s.width) := by
  unfold State.acceptByte; dsimp only; split <;> simp

@[simp] theorem acceptByte_input : (s.acceptByte b).input = s.input := by
  unfold State.acceptByte; dsimp only; split <;> simp

theorem acceptByte_width : (s.acceptByte b).width = s.width := width_congr (acceptByte_cfg s b)

/-- The counter advances by 8 at its own width. -/
theorem acceptByte_length : (s.acceptByte b).length = (s.length + 8) % 2 ^ lengthBits s.width := by
  have lt : (s.length + 8) % 2 ^ lengthBits s.width < 2 ^ lengthBits s.width := Nat.mod_lt _ (Nat.two_pow_pos _)
  exact length_of_len (acceptByte_len s b) (by rwa [acceptByte_width])

variable {s}

/-- A byte that does not fill the block. -/
theorem acceptByte_buffered (h : s.fill + 1 < blockSize s.width) :
    (s.acceptByte b).bufLen = BitVec.ofNat 7 (s.fill + 1) ∧ (s.acceptByte b).h = s.h ∧
      (s.acceptByte b).fill = s.fill + 1 := by
  have eq : s.acceptByte b =
      ((s.memWrite s.fill b).setLength ((s.length + 8) % 2 ^ lengthBits s.width)).setFill (s.fill + 1) := by
    unfold State.acceptByte
    rw [if_neg (by omega)]
  have len : (s.acceptByte b).bufLen = BitVec.ofNat 7 (s.fill + 1) := by rw [eq]; rfl
  exact ⟨len, by rw [eq]; rfl, fill_of_bufLen len (by rwa [acceptByte_width])⟩

/-- The byte that fills the block: it is compressed in the same step. -/
theorem acceptByte_drained (wf : Memory.wf s.buf = true) (h : s.fill + 1 = blockSize s.width) :
    (s.acceptByte b).bufLen = BitVec.ofNat 7 0 ∧ (s.acceptByte b).fill = 0 ∧
      (s.acceptByte b).h = (s.compressBlock (s.tail ++ [b])).h := by
  have block : (s.memWrite s.fill b).block = s.tail ++ [b] := by
    have : (s.memWrite s.fill b).block = (s.memWrite s.fill b).cells 0 (s.fill + 1) := by
      rw [h]; rfl
    rw [this]
    exact State.cells_memWrite_next b wf
  have eq : s.acceptByte b =
      (((s.memWrite s.fill b).setLength ((s.length + 8) % 2 ^ lengthBits s.width)).compressBlock
        (s.memWrite s.fill b).block).setFill 0 := by
    unfold State.acceptByte
    rw [if_pos h]
    rfl
  have len : (s.acceptByte b).bufLen = BitVec.ofNat 7 0 := by rw [eq]; rfl
  exact ⟨len, fill_of_bufLen len (blockSize_pos _), by rw [eq, block]; rfl⟩

/-- The meaningful cells after an accepted byte. -/
theorem acceptByte_tail (wf : Memory.wf s.buf = true) :
    (s.acceptByte b).tail = if s.fill + 1 = blockSize s.width then [] else s.tail ++ [b] := by
  have lt := fill_lt s
  have same : ∀ n, (s.acceptByte b).cells 0 n = (s.memWrite s.fill b).cells 0 n :=
    fun n => cells_eq_of_buf (acceptByte_buf s b) 0 n
  split
  · next h => rw [State.tail, (acceptByte_drained b wf h).2.1]; rfl
  · next h =>
    rw [State.tail, (acceptByte_buffered b (by omega)).2.2, same]
    exact State.cells_memWrite_next b wf

theorem acceptByte_wf (wf : Memory.wf s.buf = true) : Memory.wf (s.acceptByte b).buf = true := by
  rw [acceptByte_buf]
  exact Memory.write_wf b (fill_lt_cells s) wf

/-- The hash state after an accepted byte. -/
theorem acceptByte_hash {v : Variant} (hv : s.cfg = v) (wf : Memory.wf s.buf = true) :
    (s.acceptByte b).hash (Machine.config v).width =
      compressAll (Machine.config v) (s.hash (Machine.config v).width)
        (blocksOf (Machine.config v).width (s.tail ++ [b])) := by
  subst hv
  have lt := fill_lt s
  have size : (s.tail ++ [b]).length = s.fill + 1 := by simp
  by_cases h : s.fill + 1 = blockSize s.width
  · have one : blocksOf s.width (s.tail ++ [b]) = [s.tail ++ [b]] := blocksOf_one (size.trans h)
    refine (hash_congr (acceptByte_drained b wf h).2.2 _).trans ?_
    refine (hash_compressBlock s (s.tail ++ [b])).trans ?_
    exact (congrArg (compressAll (Machine.config s.cfg) _) one).symm
  · have none : blocksOf s.width (s.tail ++ [b]) = [] := blocksOf_short (by omega)
    refine (hash_congr (acceptByte_buffered b (by omega)).2.1 _).trans ?_
    exact (congrArg (compressAll (Machine.config s.cfg) (s.hash s.width)) none).symm

end AcceptByte

/-! ### FINALIZE (R154) -/

section Finish

variable (s : State)

@[simp] theorem finish_phase : s.finish.phase = .finalized := rfl

@[simp] theorem finish_cfg : s.finish.cfg = s.cfg := (foldl_compressBlock_frame _ s).2.1

@[simp] theorem finish_buf : s.finish.buf = s.buf := (foldl_compressBlock_frame _ s).2.2.1

@[simp] theorem finish_bufLen : s.finish.bufLen = BitVec.ofNat 7 0 := rfl

@[simp] theorem finish_len : s.finish.len = s.len := (foldl_compressBlock_frame _ s).2.2.2.2.1

@[simp] theorem finish_input : s.finish.input = s.input := (foldl_compressBlock_frame _ s).2.2.2.2.2.1

theorem finish_fill : s.finish.fill = 0 := fill_of_bufLen (finish_bufLen s) (blockSize_pos _)

theorem finish_length : s.finish.length = s.length := length_congr (finish_cfg s) (finish_len s)

/-- The final hash state: the padding blocks compressed in order. -/
theorem finish_hash {v : Variant} (hv : s.cfg = v) :
    s.finish.hash (Machine.config v).width =
      compressAll (Machine.config v) (s.hash (Machine.config v).width) (pad s.width s.tail s.length) :=
  hash_foldl_compressBlock (s := s) _ hv

theorem finish_small (h : ∀ y ∈ s.h.toList, y.toNat < 2 ^ s.width.bits) :
    ∀ y ∈ s.finish.h.toList, y.toNat < 2 ^ s.width.bits :=
  foldl_compressBlock_small _ h

end Finish

/-! ### INIT v (R151) -/

theorem newObject_fill (s : State) (v : Variant) : (s.newObject v).fill = 0 :=
  fill_of_bufLen rfl (blockSize_pos _)

theorem newObject_length (s : State) (v : Variant) : (s.newObject v).length = 0 :=
  length_of_len rfl (Nat.two_pow_pos _)

theorem newObject_hash (s : State) (v : Variant) :
    (s.newObject v).hash (Machine.config v).width = (Machine.config v).initialHash :=
  hash_setHash s (Machine.config v).initialHash

theorem newObject_tail (s : State) (v : Variant) : (s.newObject v).tail = [] := by
  rw [State.tail, newObject_fill]; rfl

/-! ### The step -/

theorem step_command {s : State} {cw : CommandWord} {rest : List HostEvent} (h : s.input = .command cw :: rest) :
    step s = runWord cw (s.setInput rest) := by
  rw [step, h]; rfl

/-- A number that fits one command word is placed as that word. -/
theorem withFetchWord_fits {nbits w : Nat} (s : State) (h : w % 2 ^ nbits < 2 ^ 16) :
    s.withFetchWord nbits w = s.presentFirst (BitVec.ofNat 16 (w % 2 ^ nbits)) := if_pos h

/-- A number that fits no command word places nothing. -/
theorem withFetchWord_tooWide {nbits w : Nat} (s : State) (h : ¬ w % 2 ^ nbits < 2 ^ 16) :
    s.withFetchWord nbits w = s := if_neg h

theorem runWord_instr {cw : CommandWord} {i : Instr} (s : State) (h : decode cw = .instr i) :
    runWord cw s = exec i s := by
  rw [runWord, h]

theorem runWord_illegal {cw : CommandWord} {r : IllegalReason} (s : State) (h : decode cw = .illegal r) :
    runWord cw s = .next (s.raiseError .illegalCommand) := by
  rw [runWord, h]; rfl

/-- Every instruction keeps the canonical form of the cells. -/
theorem exec_wf {i : Instr} {s t : State} (wf : Memory.wf s.buf = true) (h : exec i s = .next t) :
    Memory.wf t.buf = true := by
  obtain ⟨u, hu, cases⟩ := exec_cases i s
  obtain rfl : u = t := by rw [h] at hu; cases hu; rfl
  obtain ⟨v, -, rfl⟩ | ⟨b, -, -, rfl⟩ | ⟨-, -, rfl⟩ | ⟨-, -, rfl⟩ | ⟨-, -, -, rfl⟩ | ⟨-, rfl⟩ := cases
  · exact wf
  · exact acceptByte_wf b wf
  · exact wf
  · exact (congrArg _ (finish_buf s)).trans wf
  · exact wf
  · exact wf

/-- Every command word keeps the canonical form of the cells. -/
theorem runWord_wf {cw : CommandWord} {s t : State} (wf : Memory.wf s.buf = true) (h : runWord cw s = .next t) :
    Memory.wf t.buf = true := by
  cases hd : decode cw with
  | instr i => exact exec_wf wf (runWord_instr s hd ▸ h)
  | illegal r => rw [runWord_illegal s hd] at h; cases h; exact wf

/-- Everything one step can do, once. -/
theorem step_cases (s : State) :
    (s.input = [] ∧ step s = .next s) ∨
    (∃ cw rest, s.input = .command cw :: rest ∧ step s = runWord cw (s.setInput rest)) ∨
    (∃ rest, s.input = .reset :: rest ∧ step s = .next (s.setInput rest).takeReset) ∨
    (∃ a b rest, s.input = .commandsTogether a b :: rest ∧ step s = .refused .simultaneousCommands) ∨
    (∃ cw rest, s.input = .resetDuringCommand cw :: rest ∧ step s = .fault .resetMidCommand) := by
  unfold step
  cases hin : s.input with
  | nil => exact .inl ⟨rfl, rfl⟩
  | cons ev rest =>
    cases ev with
    | command cw => exact .inr (.inl ⟨cw, rest, rfl, rfl⟩)
    | reset => exact .inr (.inr (.inl ⟨rest, rfl, rfl⟩))
    | commandsTogether a b => exact .inr (.inr (.inr (.inl ⟨a, b, rest, rfl, rfl⟩)))
    | resetDuringCommand cw => exact .inr (.inr (.inr (.inr ⟨cw, rest, rfl, rfl⟩)))

end Sys2Proof.Machine
end

