-- ==== Sys2Proof/Laws/Constants.lean ====
section
/-! SUPPORT. The primes of R189, all below 410, by trial division: what makes a count of primes quick to check;
and the shape of a table of constants. -/

namespace Sys2Proof.Machine

open Sys2Proof

/-- A table holds `columns` words for each of its rows. -/
theorem tableWords_length (w columns : Nat) (rows : List Nat) :
    (tableWords w columns rows).length = columns * rows.length := by
  simp [tableWords, Nat.mul_comm]

/-- Trial division by the primes below 21. -/
abbrev passesTrial (p : Nat) : Prop := 2 ≤ p ∧ ∀ d ∈ [2, 3, 5, 7, 11, 13, 17, 19], p % d = 0 → p = d

theorem prime_iff_passesTrial {p : Nat} (lt : p < 410) : p.Prime ↔ passesTrial p := by
  constructor
  · intro h
    refine ⟨h.two_le, fun d hd m => ?_⟩
    have dv : d = 1 ∨ d = p := h.eq_one_or_self_of_dvd d (Nat.dvd_of_mod_eq_zero m)
    fin_cases hd <;> omega
  · rintro ⟨two, h⟩
    by_contra c
    have q := Nat.minFac_prime (n := p) (by omega)
    have sq := Nat.minFac_sq_le_self (by omega) c
    have dv := Nat.minFac_dvd p
    have small : p.minFac < 21 := by nlinarith
    generalize p.minFac = m at *
    have listed : m ∈ [2, 3, 5, 7, 11, 13, 17, 19] := by
      interval_cases m <;> first | decide | (exfalso; revert q; norm_num)
    have eq := h m listed (Nat.mod_eq_zero_of_dvd dv)
    subst eq
    exact c q

/-- How many primes lie below a number, counted by trial division. -/
theorem count_prime {n : Nat} (le : n ≤ 410) :
    Nat.count Nat.Prime n = ((List.range n).filter fun p => decide (passesTrial p)).length := by
  induction n with
  | zero => rfl
  | succ n ih =>
    rw [Nat.count_succ, ih (by omega), List.range_succ, List.filter_append, List.length_append]
    simp only [prime_iff_passesTrial (show n < 410 by omega), List.filter_cons, List.filter_nil, decide_eq_true_eq]
    split <;> rfl

end Sys2Proof.Machine
end

