-- ==== Sys2Proof/Laws/Encoding.lean ====
section
/-! SUPPORT. The fields of a command word as numbers, and the masks of the opcode table as divisions. -/

namespace Sys2Proof

theorem CommandWord.op_toNat (cw : CommandWord) : cw.op.toNat = cw.toNat / 2 ^ 14 := by
  have := cw.isLt
  simp [CommandWord.op, Nat.shiftRight_eq_div_pow]
  omega

theorem CommandWord.rsv_toNat (cw : CommandWord) : cw.rsv.toNat = cw.toNat / 2 ^ 9 % 32 := by
  simp [CommandWord.rsv, Nat.shiftRight_eq_div_pow]

theorem CommandWord.valid_toNat (cw : CommandWord) : cw.valid.toNat = cw.toNat / 2 ^ 8 % 2 := by
  simp [CommandWord.valid, Nat.shiftRight_eq_div_pow]

theorem CommandWord.imm8_toNat (cw : CommandWord) : cw.imm8.toNat = cw.toNat % 256 := by
  simp [CommandWord.imm8]

/-- Each test the decoder makes, on the word's number. -/
theorem CommandWord.tests (cw : CommandWord) :
    (cw.op = 0b00#2 ↔ cw.toNat / 2 ^ 14 = 0) ∧ (cw.op = 0b01#2 ↔ cw.toNat / 2 ^ 14 = 1) ∧
    (cw.op = 0b10#2 ↔ cw.toNat / 2 ^ 14 = 2) ∧ (cw.rsv = 0#5 ↔ cw.toNat / 2 ^ 9 % 32 = 0) ∧
    (cw.valid = 0#1 ↔ cw.toNat / 2 ^ 8 % 2 = 0) ∧ (cw.valid = 1#1 ↔ cw.toNat / 2 ^ 8 % 2 = 1) ∧
    (cw.imm8 = 0#8 ↔ cw.toNat % 256 = 0) ∧
    (cw.imm8.extractLsb' 2 6 = 0#6 ↔ cw.toNat / 2 ^ 2 % 64 = 0) := by
  simp only [← BitVec.toNat_inj, CommandWord.op_toNat, CommandWord.rsv_toNat, CommandWord.valid_toNat,
    CommandWord.imm8_toNat, BitVec.extractLsb'_toNat, Nat.shiftRight_eq_div_pow]
  simp
  omega

@[simp] theorem Variant.code_ofCode (c : BitVec 2) : (Variant.ofCode c).code = c := by
  revert c; decide

@[simp] theorem Variant.ofCode_code (v : Variant) : Variant.ofCode v.code = v := by
  cases v <;> decide

/-- A mask of high bits keeps the quotient. -/
theorem and_high_mask {n m k : Nat} (hn : n < 2 ^ 16) (hm : m = 2 ^ 16 - 2 ^ k) (hk : k ≤ 16) :
    n &&& m = n / 2 ^ k * 2 ^ k := by
  have ones : m = (2 ^ (16 - k) - 1) * 2 ^ k := by
    rw [hm, Nat.sub_mul, ← Nat.pow_add, Nat.sub_add_cancel hk, Nat.one_mul]
  apply Nat.eq_of_testBit_eq
  intro i
  rw [Nat.testBit_and, ones, Nat.testBit_mul_two_pow, Nat.testBit_mul_two_pow, Nat.testBit_two_pow_sub_one,
    Nat.testBit_div_two_pow]
  by_cases h : k ≤ i
  · have e : i - k + k = i := by omega
    simp only [h, decide_true, Bool.true_and, e]
    by_cases h2 : i - k < 16 - k
    · simp [h2]
    · have none : n.testBit i = false :=
        Nat.testBit_lt_two_pow (lt_of_lt_of_le hn (Nat.pow_le_pow_right (by decide) (by omega)))
      simp [none]
  · simp [h]

/-- Which words the rows with operands select, on the word's number. -/
theorem CommandWord.row_tests (cw : CommandWord) :
    (cw &&& 0xFFFC#16 = 0x4000#16 ↔ cw.toNat / 4 = 0x1000) ∧
    (cw &&& 0xFF00#16 = 0x8100#16 ↔ cw.toNat / 256 = 0x81) ∧
    (cw &&& 0xC000#16 = 0x0000#16 ↔ cw.toNat / 2 ^ 14 = 0) := by
  have lt := cw.isLt
  simp only [← BitVec.toNat_inj, BitVec.toNat_and, BitVec.toNat_ofNat]
  rw [show 0xFFFC % 2 ^ 16 = 0xFFFC by rfl, show 0xFF00 % 2 ^ 16 = 0xFF00 by rfl,
    show 0xC000 % 2 ^ 16 = 0xC000 by rfl, and_high_mask (k := 2) lt (by rfl) (by decide),
    and_high_mask (k := 8) lt (by rfl) (by decide), and_high_mask (k := 14) lt (by rfl) (by decide)]
  omega

end Sys2Proof
end

