-- ==== Sys2Proof/Laws/PerInstr.lean ====
section
/-! SUPPORT. Statements made per instruction, one lemma per constructor. -/

namespace Sys2Proof.Laws

open Sys2Proof

/-- The encoding of an instruction lies in the instruction's row of the opcode table: under the row's mask it is the
row's match (R72 to R75, R77 a). -/
def RowMatch.Statement (i : Instr) : Prop := encode i &&& i.rowMask = i.rowMatch

theorem RowMatch.init (v : Variant) : RowMatch.Statement (.init v) := by
  unfold RowMatch.Statement
  cases v <;> decide

theorem RowMatch.append (b : Byte) : RowMatch.Statement (.append b) := by
  have lt := b.isLt
  refine (CommandWord.row_tests _).2.1.mpr ?_
  simp [encode]
  omega

theorem RowMatch.append0 : RowMatch.Statement .append0 := by
  unfold RowMatch.Statement; decide

theorem RowMatch.finalize : RowMatch.Statement .finalize := by
  unfold RowMatch.Statement; decide

theorem RowMatch.reservedOp00 (x : BitVec 14) : RowMatch.Statement (.reservedOp00 x) := by
  have lt := x.isLt
  refine (CommandWord.row_tests _).2.2.mpr ?_
  simp [encode]
  omega

end Sys2Proof.Laws
end

