-- ==== Sys2Proof/Laws/Programs.lean ====
section
/-! SUPPORT. Commands and runs: that the host's side and the last response do not steer a command, what the digest
object determines, and the small laws of runs of commands. -/

namespace Sys2Proof.Machine

open Sys2Proof

/-! ### The host's side and the last response do not steer a command -/

/-- No instruction touches what the host still presents. -/
theorem exec_input {i : Instr} {s t : State} (h : exec i s = .next t) : t.input = s.input := by
  obtain ⟨t', e, c⟩ := exec_cases i s
  rw [h] at e; cases e
  rcases c with ⟨v, rfl, rfl⟩ | ⟨b, rfl, hp, rfl⟩ | ⟨rfl, hp, rfl⟩ | ⟨rfl, hp, rfl⟩ | ⟨-, -, -, rfl⟩ | ⟨-, rfl⟩ <;>
    simp

theorem acceptByte_setInput (s : State) (b : Byte) (evs : List HostEvent) :
    (s.setInput evs).acceptByte b = (s.acceptByte b).setInput evs := by
  have f : (s.setInput evs).fill = s.fill := rfl
  have w : (s.setInput evs).width = s.width := rfl
  unfold State.acceptByte
  rw [f, w]
  split <;> rfl

theorem acceptByte_setResponse (s : State) (b : Byte) (r : Option Response) :
    (s.setResponse r).acceptByte b = (s.acceptByte b).setResponse r := by
  have f : (s.setResponse r).fill = s.fill := rfl
  have w : (s.setResponse r).width = s.width := rfl
  unfold State.acceptByte
  rw [f, w]
  split <;> rfl

theorem foldl_compressBlock_setInput (evs : List HostEvent) (blocks : List (List Byte)) : ∀ s : State,
    blocks.foldl State.compressBlock (s.setInput evs) = (blocks.foldl State.compressBlock s).setInput evs := by
  induction blocks with
  | nil => intro s; rfl
  | cons B rest ih => intro s; exact ih (s.compressBlock B)

theorem foldl_compressBlock_setResponse (r : Option Response) (blocks : List (List Byte)) : ∀ s : State,
    blocks.foldl State.compressBlock (s.setResponse r) = (blocks.foldl State.compressBlock s).setResponse r := by
  induction blocks with
  | nil => intro s; rfl
  | cons B rest ih => intro s; exact ih (s.compressBlock B)

theorem finish_setInput (s : State) (evs : List HostEvent) : (s.setInput evs).finish = s.finish.setInput evs := by
  have e : pad (s.setInput evs).width (s.setInput evs).tail (s.setInput evs).length =
      pad s.width s.tail s.length := rfl
  unfold State.finish State.compressPadding
  rw [e, foldl_compressBlock_setInput]
  rfl

theorem finish_setResponse (s : State) (r : Option Response) :
    (s.setResponse r).finish = s.finish.setResponse r := by
  have e : pad (s.setResponse r).width (s.setResponse r).tail (s.setResponse r).length =
      pad s.width s.tail s.length := rfl
  unfold State.finish State.compressPadding
  rw [e, foldl_compressBlock_setResponse]
  rfl

/-- A command does the same whatever the host presents after it. -/
theorem exec_setInput {i : Instr} {s t : State} (evs : List HostEvent) (h : exec i s = .next t) :
    exec i (s.setInput evs) = .next (t.setInput evs) := by
  obtain ⟨t', e, c⟩ := exec_cases i s
  rw [h] at e; cases e
  rcases c with ⟨v, rfl, rfl⟩ | ⟨b, rfl, hp, rfl⟩ | ⟨rfl, hp, rfl⟩ | ⟨rfl, hp, rfl⟩ | ⟨hi, w, hp, rfl⟩ | ⟨w, rfl⟩
  · rfl
  · rw [exec_append_accepting (s := s.setInput evs) b hp, acceptByte_setInput]; rfl
  · rw [exec_append0_accepting (s := s.setInput evs) hp]; rfl
  · rw [exec_finalize_accepting (s := s.setInput evs) hp, finish_setInput]; rfl
  · cases i with
    | init v => exact absurd rfl (hi v)
    | append b => exact exec_append_other (s := s.setInput evs) b hp
    | append0 => exact exec_append0_other (s := s.setInput evs) hp
    | finalize => exact exec_finalize_other (s := s.setInput evs) hp
    | reservedOp00 x => cases w
  · cases i with
    | init v => cases w
    | append b => cases w
    | append0 => cases w
    | finalize => cases w
    | reservedOp00 x => exact exec_reserved x _

/-- A command does not read the response of the one before it. -/
theorem exec_setResponse (i : Instr) (s : State) (r : Option Response) : exec i (s.setResponse r) = exec i s := by
  cases i with
  | init v => rfl
  | append b =>
    by_cases h : s.phase = .accepting
    · rw [exec_append_accepting b h, exec_append_accepting (s := s.setResponse r) b h, acceptByte_setResponse]; rfl
    · rw [exec_append_other b h, exec_append_other (s := s.setResponse r) b h]; rfl
  | append0 =>
    by_cases h : s.phase = .accepting
    · rw [exec_append0_accepting h, exec_append0_accepting (s := s.setResponse r) h]; rfl
    · rw [exec_append0_other h, exec_append0_other (s := s.setResponse r) h]; rfl
  | finalize =>
    by_cases h : s.phase = .accepting
    · rw [exec_finalize_accepting h, exec_finalize_accepting (s := s.setResponse r) h, finish_setResponse]; rfl
    · rw [exec_finalize_other h, exec_finalize_other (s := s.setResponse r) h]; rfl
  | reservedOp00 x => rfl

/-! ### The digest object -/

/-- Two engines hold the same object when their logical registers agree. -/
theorem object_eq {s s' : State} : s.object = s'.object ↔
    s.cfg = s'.cfg ∧ s.hash (Machine.config s.cfg).width = s'.hash (Machine.config s.cfg).width ∧
      s.tail = s'.tail ∧ s.length = s'.length := by
  unfold State.object
  rw [DigestObject.mk.injEq]
  constructor
  · rintro ⟨c, w, t, l⟩
    have hw : s'.width = s.width := width_congr c.symm
    rw [hw] at w
    exact ⟨c, HashWords.eq_of_toNat w, t, l⟩
  · rintro ⟨c, w, t, l⟩
    have hw : s'.width = s.width := width_congr c.symm
    refine ⟨c, ?_, t, l⟩
    rw [hw]
    exact congrArg (fun x => x.toList.map BitVec.toNat) w

/-- The digest is that of the hash words under the selected variant. -/
theorem digest_eq {s : State} {v : Variant} (h : s.cfg = v) :
    s.digest = digest (Machine.config v) (s.hash (Machine.config v).width) := by
  subst h; rfl

theorem digest_of_hash {s s' : State} (c : s.cfg = s'.cfg)
    (h : s.hash (Machine.config s.cfg).width = s'.hash (Machine.config s.cfg).width) : s.digest = s'.digest := by
  rw [digest_eq c.symm, ← h, digest_eq rfl]

theorem digest_congr {s t : State} (c : t.cfg = s.cfg) (h : t.h = s.h) : t.digest = s.digest :=
  digest_of_hash c (hash_congr h _)

theorem digest_length (s : State) : s.digest.length = digestLength s.config := by
  rw [State.digest, digest, List.length_flatMap]
  simp only [bigEndian_length, List.map_const', List.sum_replicate, List.length_take, HashWords.toList_length,
    smul_eq_mul, State.config]
  cases s.cfg <;> rfl

/-- A fresh object. -/
theorem newObject_object (v : Variant) (s : State) :
    (s.newObject v).object = ⟨v, (Machine.config v).initialHash.toList.map BitVec.toNat, [], 0⟩ := by
  show DigestObject.mk v _ (s.newObject v).tail (s.newObject v).length = _
  rw [newObject_tail, newObject_length]
  exact congrArg (fun x => DigestObject.mk v (x.toList.map BitVec.toNat) [] 0) (newObject_hash s v)

theorem finish_tail (s : State) : s.finish.tail = [] := by
  rw [State.tail, finish_fill]; rfl

/-! ### Blocks of a stream fed byte by byte -/

/-- The meaningful cells after one more byte. -/
def nextTail (e : Width) (tail : List Byte) (b : Byte) : List Byte :=
  if tail.length + 1 = blockSize e then [] else tail ++ [b]

theorem acceptByte_nextTail {s : State} (b : Byte) (wf : Memory.wf s.buf = true) :
    (s.acceptByte b).tail = nextTail s.width s.tail b := by
  rw [acceptByte_tail b wf, nextTail, tail_length]

theorem nextTail_length {e : Width} {tail : List Byte} (b : Byte) (h : tail.length < blockSize e) :
    (nextTail e tail b).length = (tail.length + 1) % blockSize e := by
  unfold nextTail
  split
  · next full => rw [full, Nat.mod_self]; rfl
  · next short => rw [Nat.mod_eq_of_lt (by omega)]; simp

theorem blocksOf_feed {e : Width} {tail : List Byte} (b : Byte) (rest : List Byte) (h : tail.length < blockSize e) :
    blocksOf e (tail ++ b :: rest) = blocksOf e (tail ++ [b]) ++ blocksOf e (nextTail e tail b ++ rest) := by
  have eq : tail ++ b :: rest = (tail ++ [b]) ++ rest := by simp
  rw [eq, nextTail]
  split
  · next full => rw [blocksOf_append (q := 1) rest (by simp [full])]; rfl
  · next short =>
    have none : blocksOf e (tail ++ [b]) = [] := blocksOf_short (by simp; omega)
    rw [none]; rfl

theorem drop_feed {e : Width} {tail : List Byte} (b : Byte) (rest : List Byte) :
    (nextTail e tail b ++ rest).drop (((nextTail e tail b).length + rest.length) / blockSize e * blockSize e) =
      (tail ++ b :: rest).drop ((tail.length + (rest.length + 1)) / blockSize e * blockSize e) := by
  have pos := blockSize_pos e
  have eq : tail ++ b :: rest = (tail ++ [b]) ++ rest := by simp
  rw [eq, nextTail]
  split
  · next full =>
    have sum : tail.length + (rest.length + 1) = rest.length + blockSize e := by omega
    have size : (tail ++ [b]).length = blockSize e := by simp [full]
    rw [sum, Nat.add_div_right _ pos, Nat.succ_mul, List.nil_append, List.length_nil, Nat.zero_add, Nat.add_comm,
      ← List.drop_drop, ← size, List.drop_left]
  · rw [List.length_append, List.length_singleton,
      show tail.length + (rest.length + 1) = tail.length + 1 + rest.length by omega]

theorem compressAll_append (c : VariantConfig) (hash : HashWords (Word c.width)) (a b : List (List Byte)) :
    compressAll c hash (a ++ b) = compressAll c (compressAll c hash a) b :=
  List.foldl_append

/-! ### Runs -/

theorem core_run_next (M : Host.Core) {k : Nat} {s t : M.State} (h : M.step s = .next t) :
    M.run (k + 1) s = M.run k t := by
  rw [Host.Core.run, h]

/-- One more step of the machine. -/
theorem run_next {k : Nat} {s t : State} (h : step s = .next t) :
    Sys2Proof.core.run (k + 1) s = Sys2Proof.core.run k t :=
  core_run_next Sys2Proof.core h

/-- Instructions after instructions. -/
theorem execAll_append {p : List Instr} (q : List Instr) : ∀ {s t : State}, execAll p s = .next t →
    execAll (p ++ q) s = execAll q t := by
  induction p with
  | nil => intro s t h; cases h; rfl
  | cons i p ih =>
    intro s t h
    obtain ⟨u, hu, -⟩ := exec_cases i s
    rw [execAll, hu] at h
    rw [List.cons_append, execAll, hu]
    exact ih h

end Sys2Proof.Machine
end

