-- ==== Sys2Proof/Laws/Schedule.lean ====
section
/-! SUPPORT. The message schedule as a sequence: its length, its first sixteen words and the recurrence. -/

namespace Sys2Proof.Machine

open Sys2Proof

@[simp] theorem blockWords_length (e : Width) (block : List Byte) : (blockWords e block).length = 16 := by
  simp [blockWords]

@[simp] theorem extendSchedule_length {e : Width} (n : Nat) : ∀ ws : List (Word e),
    (extendSchedule n ws).length = ws.length + n := by
  induction n with
  | zero => intro ws; rfl
  | succ n ih => intro ws; rw [extendSchedule, ih, List.length_append, List.length_singleton]; omega

/-- A written word is never written again. -/
theorem wordAt_append {e : Width} {ws vs : List (Word e)} {t : Nat} (h : t < ws.length) :
    wordAt (ws ++ vs) t = wordAt ws t := by
  simp only [wordAt, List.getD_append _ _ _ _ h]

theorem wordAt_extendSchedule {e : Width} (n : Nat) : ∀ {ws : List (Word e)} {t : Nat}, t < ws.length →
    wordAt (extendSchedule n ws) t = wordAt ws t := by
  induction n with
  | zero => intro ws t _; rfl
  | succ n ih =>
    intro ws t h
    rw [extendSchedule, ih (by simp; omega), wordAt_append h]

/-- R114 for every word the recurrence writes. -/
theorem extendSchedule_recurrence {e : Width} (n : Nat) : ∀ {ws : List (Word e)} {t : Nat}, 16 ≤ ws.length →
    ws.length ≤ t → t < ws.length + n →
    wordAt (extendSchedule n ws) t =
      addWords [ssig1 e (wordAt (extendSchedule n ws) (t - 2)), wordAt (extendSchedule n ws) (t - 7),
        ssig0 e (wordAt (extendSchedule n ws) (t - 15)), wordAt (extendSchedule n ws) (t - 16)] := by
  induction n with
  | zero => intro ws t _ _ _; omega
  | succ n ih =>
    intro ws t enough le lt
    rw [extendSchedule]
    have size : (ws ++ [nextWord ws]).length = ws.length + 1 := by simp
    by_cases here : t = ws.length
    · subst here
      have earlier : ∀ d, 1 ≤ d → d ≤ 16 →
          wordAt (extendSchedule n (ws ++ [nextWord ws])) (ws.length - d) = wordAt ws (ws.length - d) := by
        intro d _ _
        rw [wordAt_extendSchedule n (by omega), wordAt_append (by omega)]
      rw [wordAt_extendSchedule n (by omega), earlier 2 (by omega) (by omega), earlier 7 (by omega) (by omega),
        earlier 15 (by omega) (by omega), earlier 16 (by omega) (by omega)]
      simp [wordAt, nextWord]
    · exact ih (by omega) (by omega) (by omega)

theorem config_rounds (v : Variant) : 16 ≤ (config v).rounds := by cases v <;> decide

@[simp] theorem schedule_length (v : Variant) (block : List Byte) :
    (schedule (config v) block).length = (config v).rounds := by
  have := config_rounds v
  rw [schedule, extendSchedule_length, blockWords_length]
  omega

theorem roundConstants_length (v : Variant) : (config v).roundConstants.length = (config v).rounds := by
  cases v <;> decide

end Sys2Proof.Machine
end

