-- ==== Sys2Proof/Machine/Assembler.lean ====
section
/-! DEFINITION. The assembler of R80 to R82: one command a line, mnemonic in capitals, operand after a space, `;`
starting a comment. What R80 to R82 leave open (blanks, commas, how a list
of bytes is written, no escapes in quotes) is log entry 6. -/

namespace Sys2Proof.Machine

open Sys2Proof

/-- The pieces of a line. -/
inductive Token where
  /-- A run of characters: a mnemonic, a name or a number. -/
  | word (w : List Char)
  /-- A quoted ASCII character, `'a'`. -/
  | quotedChar (c : Char)
  /-- A quoted ASCII string. -/
  | quotedString (s : List Char)
  /-- The separator of two operands. -/
  | comma
deriving DecidableEq, Repr

/-- Where the reader of a line stands; the characters of an unfinished piece are held last first. -/
inductive LexMode where
  | between
  | inWord (w : List Char)
  | inString (s : List Char)
  | charOpened
  | charRead (c : Char)
  /-- After a closing quote. -/
  | closed
deriving DecidableEq, Repr

/-- A blank inside a line. -/
def isBlank (c : Char) : Bool := c.toNat == 32 || c.toNat == 9 || c.toNat == 13

/-- A line split into its pieces. DESIGN CHOICE (log entry 6): a blank, a comma, a comment or the end of the line
stands on either side of a quoted piece, so a quote directly after a word or after another quote, or a word directly
after a quote, is refused, and so is a quote that is not closed. -/
def lex : LexMode → List Char → Option (List Token)
  | .between, [] => some []
  | .between, c :: cs =>
    if c = ';' then some []
    else if isBlank c then lex .between cs
    else if c = ',' then (lex .between cs).map (Token.comma :: ·)
    else if c.toNat = 34 then lex (.inString []) cs
    else if c.toNat = 39 then lex .charOpened cs
    else lex (.inWord [c]) cs
  | .inWord w, [] => some [.word w.reverse]
  | .inWord w, c :: cs =>
    if c = ';' then some [.word w.reverse]
    else if isBlank c then (lex .between cs).map (Token.word w.reverse :: ·)
    else if c = ',' then (lex .between cs).map fun ts => Token.word w.reverse :: Token.comma :: ts
    else if c.toNat = 34 ∨ c.toNat = 39 then none
    else lex (.inWord (c :: w)) cs
  | .inString _, [] => none
  | .inString s, c :: cs =>
    if c.toNat = 34 then (lex .closed cs).map (Token.quotedString s.reverse :: ·)
    else lex (.inString (c :: s)) cs
  | .charOpened, [] => none
  | .charOpened, c :: cs => lex (.charRead c) cs
  | .charRead _, [] => none
  | .charRead q, c :: cs =>
    if c.toNat = 39 then (lex .closed cs).map (Token.quotedChar q :: ·) else none
  | .closed, [] => some []
  | .closed, c :: cs =>
    if c = ';' then some []
    else if isBlank c then lex .between cs
    else if c = ',' then (lex .between cs).map (Token.comma :: ·)
    else none

/-- The value of one digit in the given base, if it is one. -/
def digitValue (base : Nat) (c : Char) : Option Nat :=
  let n := c.toNat
  let v := if 48 ≤ n ∧ n ≤ 57 then n - 48
    else if 97 ≤ n ∧ n ≤ 102 then n - 87
    else if 65 ≤ n ∧ n ≤ 70 then n - 55
    else base
  if v < base then some v else none

/-- Digits read on from the value so far, most significant first. -/
def readDigits (base : Nat) : Nat → List Char → Option Nat
  | acc, [] => some acc
  | acc, c :: cs =>
    match digitValue base c with
    | some d => readDigits base (base * acc + d) cs
    | none => none

/-- A number, "in hexadecimal, decimal" (R80). -/
def readNumber : List Char → Option Nat
  | [] => none
  | '0' :: 'x' :: c :: cs => readDigits 16 0 (c :: cs)
  | c :: cs => readDigits 10 0 (c :: cs)

/-- A variant: its name, or its number 0 to 3 (R80). -/
def readVariant (w : List Char) : Option Variant :=
  if w = "SHA224".toList then some .sha224
  else if w = "SHA256".toList then some .sha256
  else if w = "SHA384".toList then some .sha384
  else if w = "SHA512".toList then some .sha512
  else
    match readNumber w with
    | some n => if n < 4 then some (Variant.ofCode (BitVec.ofNat 2 n)) else none
    | none => none

/-- A quoted character is ASCII (R80). -/
def charByte (c : Char) : Option Byte :=
  if c.toNat < 128 then some (BitVec.ofNat 8 c.toNat) else none

/-- A byte operand: a number below 256 or a quoted ASCII character (R80). -/
def readByte : Token → Option Byte
  | .word w =>
    match readNumber w with
    | some n => if n < 256 then some (BitVec.ofNat 8 n) else none
    | none => none
  | .quotedChar c => charByte c
  | .quotedString _ => none
  | .comma => none

/-- The bytes that follow the first of a list, each with one comma before it or none (log entry 6). -/
def readMoreBytes : List Token → Option (List Byte)
  | [] => some []
  | .comma :: t :: ts => (readByte t).bind fun b => (readMoreBytes ts).map (b :: ·)
  | t :: ts => (readByte t).bind fun b => (readMoreBytes ts).map (b :: ·)

/-- The byte sequence of APPENDS and DIGEST: "a quoted ASCII string or a list of bytes" (R81). How a list is written
the spec leaves open; DESIGN CHOICE (log entry 6): no piece at all is the empty list (so `APPENDS` alone is `APPEND0`,
and `DIGEST v,` hashes the empty input); between two bytes stands one comma or none, then blanks (every piece but a
comma is separated from the next, see `lex`); a leading, doubled or trailing comma is refused; a string stands alone,
never beside bytes or another string. -/
def readBytes : List Token → Option (List Byte)
  | [] => some []
  | [.quotedString s] => s.mapM charByte
  | t :: ts => (readByte t).bind fun b => (readMoreBytes ts).map (b :: ·)

/-- The commands of one line's pieces; a blank line holds none, and a line that is not of R80 to R82's forms is
refused. -/
def assembleTokens : List Token → Option (List Instr)
  | [] => some []
  | .word m :: ts =>
    if m = "INIT".toList then
      match ts with
      | [.word v] => (readVariant v).map fun v => [.init v]
      | _ => none
    else if m = "APPEND".toList then
      match ts with
      | [t] => (readByte t).map fun b => [.append b]
      | _ => none
    else if m = "APPEND0".toList then (if ts = [] then some [.append0] else none)
    else if m = "FINALIZE".toList then (if ts = [] then some [.finalize] else none)
    else if m = "APPENDS".toList then (readBytes ts).map appends
    else if m = "DIGEST".toList then
      match ts with
      | .word v :: .comma :: rest =>
        match readVariant v, readBytes rest with
        | some v, some s => some (digestProgram v s)
        | _, _ => none
      | _ => none
    else none
  | _ :: _ => none

/-- One line of text. -/
def assembleLine (line : List Char) : Option (List Instr) :=
  match lex .between line with
  | some ts => assembleTokens ts
  | none => none

/-- The lines of a text; the line being read is held last character first. -/
def splitLines : List Char → List Char → List (List Char)
  | line, [] => [line.reverse]
  | line, c :: cs => if c.toNat = 10 then line.reverse :: splitLines [] cs else splitLines (c :: line) cs

/-- A program text assembled, R80: the commands of its lines in order, or nothing if a line is refused. -/
def assemble (text : String) : Option (List Instr) :=
  ((splitLines [] text.toList).mapM assembleLine).map List.flatten

/-- The command words of a program text (R80, "the host presenting their encodings one after another"). -/
def assembleWords (text : String) : Option (List CommandWord) :=
  (assemble text).map fun p => p.map encode

end Sys2Proof.Machine
end

