-- ==== Sys2Proof/Tests/Slice0.lean ====
section
/-! SUPPORT. Tests on fixed values and the witnesses of the statements' hypotheses. Every expected value comes from
spec/95_test_vectors.md or from an example of the rule named, none from the model. -/

namespace Sys2Proof.Tests

open Sys2Proof Sys2Proof.Machine

/-! ### Helpers -/

/-- The next state, if there is one. -/
def next? (o : Host.Outcome State Fault Refusal) : Option State :=
  match o with
  | .next s => some s
  | .fault _ => none
  | .refused _ => none

/-- A test on the next state. -/
def nextIs (o : Host.Outcome State Fault Refusal) (p : State → Bool) : Bool :=
  match o with
  | .next s => p s
  | .fault _ => false
  | .refused _ => false

/-- A small state: a phase, a variant with its initial hash values, and some bytes buffered and counted. -/
def sample (p : Phase) (v : Variant) (bytes : List Byte) : State where
  phase := p
  cfg := v
  h := (config v).initialHash.map widenWord
  buf := bytes.zipIdx.foldl (fun m c => Memory.write m c.2 c.1) []
  bufLen := BitVec.ofNat 7 bytes.length
  len := BitVec.ofNat 128 (8 * bytes.length)
  input := []
  response := none

/-- The letters of "abc". -/
def abc : List Byte := [0x61, 0x62, 0x63]

/-- `n` letters `a`. -/
def letters (n : Nat) : List Byte := List.replicate n 0x61

/-! ### WellFormed: the one check, and the ill-formed terms it refuses -/

theorem test_wellFormed_refuses_reserved :
    Instr.wellFormed (.reservedOp00 0) = false ∧ Instr.wellFormed (.reservedOp00 0x3FFF) = false := by decide

theorem test_wellFormed_accepts_commands :
    Instr.wellFormed (.init .sha384) = true ∧ Instr.wellFormed (.append 0xFF) = true ∧
    Instr.wellFormed .append0 = true ∧ Instr.wellFormed .finalize = true := by decide

theorem test_program_with_reserved_refused :
    programWellFormed [.init .sha256, .reservedOp00 0, .finalize] = false ∧
    programWellFormed [.init .sha256, .append 0x61, .finalize] = true := by decide

/-! ### Decode: words written out from the formats of R72 to R77 (95_test_vectors.md section 3.8) -/

theorem test_decode_init :
    decode 0b0100000000000000#16 = .instr (.init .sha224) ∧ decode 0b0100000000000001#16 = .instr (.init .sha256) ∧
    decode 0b0100000000000010#16 = .instr (.init .sha384) ∧
    decode 0b0100000000000011#16 = .instr (.init .sha512) := by decide

theorem test_decode_append :
    decode 0b1000000100000000#16 = .instr (.append 0x00) ∧ decode 0b1000000101100001#16 = .instr (.append 0x61) ∧
    decode 0b1000000111111111#16 = .instr (.append 0xFF) := by decide

theorem test_decode_append0 : decode 0b1000000000000000#16 = .instr .append0 := by decide

theorem test_decode_finalize : decode 0b1100000000000000#16 = .instr .finalize := by decide

theorem test_decode_reserved :
    decode 0x0000#16 = .instr (.reservedOp00 0) ∧ decode 0b0000000101100001#16 = .instr (.reservedOp00 0x161) ∧
    decode 0b0011111111111111#16 = .instr (.reservedOp00 0x3FFF) := by decide

theorem test_decode_illegal :
    decode 0x4004#16 = .illegal .initOperand ∧ decode 0x4100#16 = .illegal .initOperand ∧
    decode 0x4200#16 = .illegal .reservedBits ∧ decode 0x6001#16 = .illegal .reservedBits ∧
    decode 0x8001#16 = .illegal .appendOperand ∧ decode 0x8361#16 = .illegal .reservedBits ∧
    decode 0xA161#16 = .illegal .reservedBits ∧ decode 0xC001#16 = .illegal .finalizeOperand ∧
    decode 0xC100#16 = .illegal .finalizeOperand ∧ decode 0xE000#16 = .illegal .reservedBits ∧
    decode 0xFFFF#16 = .illegal .reservedBits := by decide

theorem test_encode :
    encode (.init .sha512) = 0x4003 ∧ encode (.append 0x61) = 0x8161 ∧ encode .append0 = 0x8000 ∧
    encode .finalize = 0xC000 := by decide

/-- A number that needs more than one word is no instruction, and bits above `nbits` count as 0. -/
theorem test_decodeTableWord :
    decodeTableWord 16 0x8161 = some (.append 0x61) ∧ decodeTableWord 16 0xC001 = none ∧
    decodeTableWord 16 0x1C000 = some .finalize ∧ decodeTableWord 24 0x14001 = none := by decide

theorem test_withFetchWord_runs_next :
    nextIs (step (State.reset.withFetchWord 16 0x4001)) (fun s =>
      decide (s.phase = .accepting ∧ s.cfg = .sha256 ∧ s.input = [])) = true ∧
    State.reset.withFetchWord 24 0x14001 = State.reset := by decide

/-! ### The word primitives and functions (95_test_vectors.md sections 3.1 to 3.4) -/

theorem test_rotr :
    rotr 0x80000000#32 31 = 0x00000001 ∧ rotr 0x12345678#32 8 = 0x78123456 ∧ rotr 0x12345678#32 0 = 0x12345678 ∧
    rotr 0x0123456789abcdef#64 61 = 0x091a2b3c4d5e6f78 := by decide

theorem test_shr :
    shr 0x12345678#32 10 = 0x00048d15 ∧ shr 0x00000007#32 3 = 0 ∧ shr 0x8000000000000000#64 7 = 0x0100000000000000 := by
  decide

theorem test_add :
    addWords [0xffffffff#32, 0xffffffff, 0xffffffff, 0xffffffff, 0xffffffff] = 0xfffffffb ∧
    addWords [0x80000000#32, 0x80000000, 1] = 1 ∧ addWords [0xffffffffffffffff#64, 2] = 1 := by decide

theorem test_choose_and_majority :
    ch 0xf0f0f0f0#32 0xaaaaaaaa 0x55555555 = 0xa5a5a5a5 ∧ maj 0xf0f0f0f0#32 0xcccccccc 0xaaaaaaaa = 0xe8e8e8e8 ∧
    ch 0x510e527fade682d1#64 0x9b05688c2b3e6c1f 0x1f83d9abfb41bd6b = 0x1f85c98c7b273d3b := by decide

theorem test_small_sigmas :
    ssig0 .w32 0x61626380#32 = 0x940e90ef ∧ ssig1 .w32 0x61626380#32 = 0x7da86405 ∧
    ssig0 .w64 0x18#64 = 0x180000000000000C ∧ ssig1 .w64 0x18#64 = 0x00030000000000C0 := by decide

theorem test_big_sigmas :
    bsig0 .w32 0x510e527f#32 = 0x7ef0e1a9 ∧ bsig1 .w32 0x6a09e667#32 = 0x55b65510 ∧
    bsig0 .w64 0x510e527fade682d1#64 = 0xca4a40a4e604afc1 ∧
    bsig1 .w64 0x6a09e667f3bcc908#64 = 0x259a6cc1643336ef := by decide

/-- R133: the working variables after round 0. -/
theorem test_round :
    roundStep (e := .w32) (loadWorking initialHash256) 0x428A2F98 0x61626380 =
      ⟨0x5d6aebcd, 0x6a09e667, 0xbb67ae85, 0x3c6ef372, 0xfa2a4622, 0x510e527f, 0x9b05688c, 0x1f83d9ab⟩ := by decide

/-- R117: two rows of the schedule of "abc". -/
theorem test_schedule :
    ((schedule (config .sha256) ((pad .w32 abc 24).getD 0 [])).drop 16).take 4 =
      [0x61626380, 0x000f0000, 0x7da86405, 0x600003c6] ∧
    (schedule (config .sha256) ((pad .w32 abc 24).getD 0 [])).drop 62 = [0xeeaba2cc, 0x12b1edeb] := by
  decide +kernel

/-- Section 3.3: one whole block. -/
theorem test_compress :
    compress (config .sha224) initialHash224 (List.replicate 64 0) =
      ⟨0xdb04d220, 0xf639ab8e, 0x8e6b506d, 0xc54481da, 0x63a5820f, 0x1294a139, 0x8edcef0e, 0x17a572bc⟩ := by
  decide +kernel

/-- R148 (c), (d) and the large counter of section 3.4. -/
theorem test_pad :
    pad .w32 (letters 55) 440 = [letters 55 ++ [0x80, 0, 0, 0, 0, 0, 0, 0x01, 0xB8]] ∧
    pad .w32 (letters 56) 448 =
      [letters 56 ++ [0x80, 0, 0, 0, 0, 0, 0, 0], List.replicate 56 0 ++ [0, 0, 0, 0, 0, 0, 0x01, 0xC0]] ∧
    (pad .w64 [] 0x000102030405060708090a0b0c0d0e08).map (List.drop 112) =
      [[0x00, 0x01, 0x02, 0x03, 0x04, 0x05, 0x06, 0x07, 0x08, 0x09, 0x0a, 0x0b, 0x0c, 0x0d, 0x0e, 0x08]] := by
  decide +kernel

/-! ### The commands, one step each (section 3.5) -/

/-- Row 10: INIT drops the digest in progress. -/
theorem test_init :
    nextIs (exec (.init .sha384) (sample .accepting .sha256 abc)) (fun s =>
      decide (s.phase = .accepting ∧ s.cfg = .sha384 ∧ s.bufLen = 0 ∧ s.len = 0 ∧ s.h.h0 = 0xcbbb9d5dc1059ed8 ∧
        s.h.h7 = 0x47b5481dbefa4fa4 ∧ s.response = some ⟨.ok, []⟩)) = true := by decide

/-- Row 8: APPEND 64. -/
theorem test_append_buffers :
    nextIs (exec (.append 0x64) (sample .accepting .sha256 abc)) (fun s =>
      decide (s.bufLen = 4 ∧ s.len = 0x20 ∧ s.tail = [0x61, 0x62, 0x63, 0x64] ∧ s.h.h0 = 0x6a09e667 ∧
        s.response = some ⟨.ok, []⟩)) = true := by decide

/-- Program P5, row 65: the 64th letter drains the buffer. -/
theorem test_append_drains :
    nextIs (exec (.append 0x61) (sample .accepting .sha256 (letters 63))) (fun s =>
      decide (s.bufLen = 0 ∧ s.len = 512 ∧ s.h = ⟨0xdf5bb81c, 0xe81e0626, 0xfb45a894, 0x4fd40f31, 0xb25e6816,
        0xd6d499c1, 0xab904929, 0x00635e66⟩)) = true := by decide +kernel

/-- Row 6. -/
theorem test_append0_accepting :
    exec .append0 (sample .accepting .sha256 abc) =
      .next { sample .accepting .sha256 abc with response := some ⟨.ok, []⟩ } := by rfl

/-- Row 17. -/
theorem test_append0_finalized :
    nextIs (exec .append0 (sample .finalized .sha256 [])) (fun s =>
      decide (s.response = some ⟨.invalidState, []⟩ ∧ s.phase = .finalized)) = true := by decide

/-- Row 14: the digest of "abc", byte by byte. -/
theorem test_finalize_sha256 :
    nextIs (exec .finalize (sample .accepting .sha256 abc)) (fun s =>
      decide (s.phase = .finalized ∧ s.bufLen = 0 ∧ s.len = 24 ∧ s.response = some ⟨.ok,
        [0xba, 0x78, 0x16, 0xbf, 0x8f, 0x01, 0xcf, 0xea, 0x41, 0x41, 0x40, 0xde, 0x5d, 0xae, 0x22, 0x23,
         0xb0, 0x03, 0x61, 0xa3, 0x96, 0x17, 0x7a, 0x9c, 0xb4, 0x10, 0xff, 0x61, 0xf2, 0x00, 0x15, 0xad]⟩)) = true := by
  decide +kernel

/-- R163: SHA384 of "abc", its two trailing words dropped. -/
theorem test_finalize_sha384 :
    nextIs (exec .finalize (sample .accepting .sha384 abc)) (fun s =>
      decide (s.h.h6 = 0xa303edfdf3b89cd7 ∧ s.response.map (fun r => fromBigEndian r.data) =
        some 0xcb00753f45a35e8bb5a03d699ac65007272c32ab0eded1631a8b605a43ff5bed8086072ba1e7cc2358baeca134c825a7)) =
      true := by
  decide +kernel

/-- Row 4 of section 3.5 and program P6, row 9. -/
theorem test_reserved :
    nextIs (exec (.reservedOp00 0) (sample .finalized .sha256 [])) (fun s =>
      decide (s.response = some ⟨.illegalCommand, []⟩ ∧ s.phase = .finalized)) = true := by decide

/-! ### The step: waiting, reset, and the two broken contracts -/

theorem test_step_waits : step (sample .accepting .sha256 abc) = .next (sample .accepting .sha256 abc) := by rfl

/-- R205, program P6, row 10: an illegal word beats the phase check. -/
theorem test_step_illegal_first :
    nextIs (step ((sample .finalized .sha256 []).setInput [.command 0xC001])) (fun s =>
      decide (s.response = some ⟨.illegalCommand, []⟩ ∧ s.phase = .finalized)) = true := by decide

theorem test_step_reset :
    nextIs (step ((sample .finalized .sha256 []).setInput [.reset, .command 0xC000])) (fun s =>
      decide (s.phase = .idle ∧ s.digestValid = false ∧ s.input = [.command 0xC000])) = true := by decide

theorem test_step_broken_contracts :
    step (State.reset.setInput [.commandsTogether 0x8161 0x8162]) = .refused .simultaneousCommands ∧
    step (State.reset.setInput [.resetDuringCommand 0xC000]) = .fault .resetMidCommand := ⟨rfl, rfl⟩

/-! ### The assembler (R80 to R82, R84) -/

theorem test_assemble_commands :
    assembleWords "INIT SHA256 ; start\nAPPEND 'a'\nAPPEND 0x61\nAPPEND 97\n\nAPPEND0\nFINALIZE" =
      some [0x4001, 0x8161, 0x8161, 0x8161, 0x8000, 0xC000] ∧
    assembleWords "INIT 3" = some [0x4003] ∧ assembleWords "INIT 4" = none ∧ assembleWords "APPEND 256" = none ∧
    assembleWords "append0" = none := by decide +kernel

theorem test_assemble_pseudo :
    assembleWords "APPENDS \"ab\"" = some [0x8161, 0x8162] ∧ assembleWords "APPENDS \"\"" = some [0x8000] ∧
    assembleWords "APPENDS 0x00 1, 'z'" = some [0x8100, 0x8101, 0x817A] ∧
    assembleWords "DIGEST SHA512, \"abc\"" = some [0x4003, 0x8161, 0x8162, 0x8163, 0xC000] := by decide +kernel

/-- The forms of a list of bytes that log entry 6 takes and refuses (R81). -/
theorem test_assemble_byteLists :
    assembleWords "APPENDS" = some [0x8000] ∧ assembleWords "APPENDS 'a','b' 1;" = some [0x8161, 0x8162, 0x8101] ∧
    assembleWords "APPENDS 'a''b'" = none ∧ assembleWords "APPENDS 1'a'" = none ∧ assembleWords "APPENDS 'a'1" = none ∧
    assembleWords "APPENDS ,1" = none ∧ assembleWords "APPENDS 1,,2" = none ∧ assembleWords "APPENDS 1," = none ∧
    assembleWords "APPENDS 1 \"ab\"" = none := by decide +kernel

/-! ### Witnesses: what meets the hypotheses of each statement, at the ends of each clause's range -/

theorem witness_RotateRightMovesEveryBit :
    0 < 32 ∧ 31 < 32 ∧ 63 < 64 ∧ (rotr 1#32 31).getLsbD 0 = (1#32).getLsbD ((0 + 31) % 32) ∧
    rotr 5#32 0 = 5 := by decide

theorem witness_ShiftRightIsFloorDivision :
    31 < 32 ∧ 0 + 31 < 32 ∧ ¬ 1 + 31 < 32 ∧ (shr 0x80000000#32 31).getLsbD 0 = true ∧
    (shr 0x80000000#32 31).getLsbD 1 = false := by decide

theorem witness_AdditionIsModular : [1#32, 2].Perm [2, 1] ∧ 0 < 32 := by decide

theorem witness_ChooseSelectsAndMajorityCounts :
    31 < 32 ∧ 2 ≤ true.toNat + false.toNat + true.toNat ∧ ¬ 2 ≤ false.toNat + false.toNat + true.toNat := by decide

theorem witness_SmallSigmasMixTheStatedBits : 0 < 32 ∧ 31 < 32 ∧ 0 < 64 ∧ 63 < 64 := by decide

theorem witness_BigSigmasMixTheStatedBits : 0 < 32 ∧ 31 < 32 ∧ 0 < 64 ∧ 63 < 64 := by decide

/-- The first and the last prime of each clause. -/
theorem witness_ConstantsAreFractionalParts :
    Variant.sha224 ∈ [Variant.sha224, Variant.sha256] ∧ Variant.sha512 ∈ [Variant.sha384, Variant.sha512] ∧
    (Nat.Prime 2 ∧ Nat.count Nat.Prime 2 = 0) ∧ (Nat.Prime 311 ∧ Nat.count Nat.Prime 311 = 63) ∧
    (Nat.Prime 409 ∧ Nat.count Nat.Prime 409 = 79) ∧ (Nat.Prime 19 ∧ Nat.count Nat.Prime 19 = 7) ∧
    (Nat.Prime 23 ∧ Nat.count Nat.Prime 23 = 0 + 8) ∧ (Nat.Prime 53 ∧ Nat.count Nat.Prime 53 = 7 + 8) := by
  rw [count_prime (by decide), count_prime (by decide), count_prime (by decide), count_prime (by decide),
    count_prime (by decide), count_prime (by decide)]
  norm_num only
  decide +kernel

theorem witness_BigEndianIsItsOwnInverse : 0 < 8 ∧ 7 < 8 ∧ 0xFFFFFFFFFFFFFFFF < 2 ^ (8 * 8) := by decide

theorem witness_BufferAccessPrimitives :
    Memory.wf (sample .accepting .sha256 abc).buf = true ∧ 0 < blockSize (sample .accepting .sha256 abc).width ∧
    63 < blockSize (sample .accepting .sha256 abc).width ∧ 127 < blockSize (sample .accepting .sha512 abc).width ∧
    64 ≠ 63 ∧ 0 < 16 ∧ 15 < 16 := by decide

theorem witness_FirstSixteenWordsAreBigEndian :
    (letters 64).length = blockSize (config .sha224).width ∧ (letters 128).length = blockSize (config .sha512).width ∧
    0 < 16 ∧ 15 < 16 := by decide

theorem witness_ScheduleObeysTheRecurrence :
    16 ≤ 16 ∧ 16 < (config .sha256).rounds ∧ 63 < (config .sha256).rounds ∧ 79 < (config .sha512).rounds ∧
    List.replicate 64 (0 : Byte) = List.replicate (blockSize (config .sha256).width) 0 := by decide

theorem witness_CompressionRunsEveryRoundInOrder :
    0 < (config .sha256).rounds ∧ 63 < (config .sha256).rounds ∧ 79 < (config .sha512).rounds := by decide

theorem witness_ZeroFillIsTheLeast :
    (0 < blockSize .w32 ∧ (0 + 1 + 55) % blockSize .w32 = blockSize .w32 - lengthFieldSize .w32) ∧
    (55 < blockSize .w32 ∧ 55 = blockSize .w32 - lengthFieldSize .w32 - 1) ∧
    (56 < blockSize .w32 ∧ 56 = blockSize .w32 - lengthFieldSize .w32) ∧ 63 < blockSize .w32 ∧
    (112 < blockSize .w64 ∧ 112 = blockSize .w64 - lengthFieldSize .w64) ∧ 127 < blockSize .w64 ∧
    ((letters 56).length = 56 ∧ (letters 56).length + 1 ≤ 57 ∧ 119 < (letters 56).length + 1 + zeroFill .w32 56) := by
  decide

theorem witness_PaddingMakesOneOrTwoBlocks :
    ((letters 55).length < blockSize .w32 ∧ 2 ^ 64 - 1 < 2 ^ lengthBits .w32 ∧
      (letters 55).length + 1 + lengthFieldSize .w32 ≤ blockSize .w32) ∧
    ((letters 56).length < blockSize .w32 ∧ blockSize .w32 < (letters 56).length + 1 + lengthFieldSize .w32) ∧
    ((letters 111).length < blockSize .w64 ∧ 2 ^ 128 - 1 < 2 ^ lengthBits .w64 ∧
      (letters 111).length + 1 + lengthFieldSize .w64 ≤ blockSize .w64) ∧
    ((letters 127).length < blockSize .w64 ∧ blockSize .w64 < (letters 127).length + 1 + lengthFieldSize .w64) := by
  decide

theorem witness_SpilledPaddingHasThisShape :
    ((letters 56).length < blockSize .w32 ∧ 448 < 2 ^ lengthBits .w32 ∧
      blockSize .w32 < (letters 56).length + 1 + lengthFieldSize .w32) ∧
    ((letters 63).length < blockSize .w32 ∧ 504 < 2 ^ lengthBits .w32 ∧
      blockSize .w32 < (letters 63).length + 1 + lengthFieldSize .w32) := by decide

theorem witness_InitForgetsThePast :
    ∃ t t', exec (.init .sha512) (sample .accepting .sha256 abc) = .next t ∧
      exec (.init .sha512) State.reset = .next t' := ⟨_, _, rfl, rfl⟩

theorem witness_AppendAddsOneByte :
    (Memory.wf State.reset.buf = true ∧ State.reset.phase ≠ .accepting) ∧
    (Memory.wf (sample .accepting .sha256 (letters 62)).buf = true ∧
      (sample .accepting .sha256 (letters 62)).phase = .accepting ∧
      (sample .accepting .sha256 (letters 62)).fill + 1 ≠ blockSize (sample .accepting .sha256 (letters 62)).width) ∧
    (Memory.wf (sample .accepting .sha256 (letters 63)).buf = true ∧
      (sample .accepting .sha256 (letters 63)).phase = .accepting ∧
      (sample .accepting .sha256 (letters 63)).fill + 1 = blockSize (sample .accepting .sha256 (letters 63)).width) := by
  decide +kernel

theorem witness_EmptyAppendChangesNothing :
    (sample .accepting .sha256 abc).phase = .accepting ∧ (sample .finalized .sha256 []).phase ≠ .accepting ∧
    State.reset.phase ≠ .accepting ∧ (next? (exec (.append 0) (sample .accepting .sha256 abc))).isSome = true := by
  decide

/-- A tail that makes one block, and a tail that makes two. -/
theorem witness_FinalizeReturnsTheDigest :
    State.reset.phase ≠ .accepting ∧ (sample .accepting .sha256 (letters 55)).phase = .accepting ∧
    (pad .w32 (sample .accepting .sha256 (letters 55)).tail 440).length = 1 ∧
    (sample .accepting .sha256 (letters 56)).phase = .accepting ∧
    (pad .w32 (sample .accepting .sha256 (letters 56)).tail 448).length = 2 := by decide +kernel

/-- Row 13 of section 3.5, and its like on the 64-bit engine. -/
theorem witness_LengthCounterWraps :
    (((sample .accepting .sha256 []).setLen 0xfffffffffffffff8).phase = .accepting ∧
      ((sample .accepting .sha256 []).setLen 0xfffffffffffffff8).length = 2 ^ lengthBits .w32 - 8) ∧
    ((sample .accepting .sha512 []).setLen 0xfffffffffffffffffffffffffffffff8).length = 2 ^ lengthBits .w64 - 8 := by
  decide

theorem witness_ExactlyTheseWordsAreLegal :
    legal 0x4003 = true ∧ legal 0x4004 = false ∧ legal 0x80FF = false ∧ legal 0x8100 = true ∧ legal 0x81FF = true ∧
    legal 0x8200 = false ∧ legal 0x8000 = true ∧ legal 0xC000 = true ∧ legal 0xFFFF = false ∧ legal 0 = false := by
  decide

theorem witness_EncodeUndoesDecode :
    decode 0x81FF = .instr (.append 0xFF) ∧ decode 0x3FFF = .instr (.reservedOp00 0x3FFF) ∧
    encode (.init .sha512) = encode (.init .sha512) := by decide

theorem witness_EveryCommandIsAnswered :
    ((sample .accepting .sha256 abc).setInput [.command 0xC000, .reset]).input = [.command 0xC000, .reset] ∧
    decode 0xC000 = .instr .finalize ∧ decode 0x8161 ≠ .instr .finalize ∧ Status.invalidState ≠ .ok ∧
    (sample .accepting .sha256 abc).phase = .accepting := by decide

theorem witness_ErrorsChangeNothing :
    ∃ t r, runWord 0x8161 State.reset = .next t ∧ t.response = some r ∧ r.status ≠ .ok :=
  ⟨_, _, rfl, rfl, by decide⟩

theorem witness_ErrorsLeaveNoTrace :
    (∃ t r, runWord 0x4004 (sample .accepting .sha256 abc) = .next t ∧ t.response = some r ∧ r.status ≠ .ok) ∧
    (∃ t r, runWord 0xC000 (sample .finalized .sha256 []) = .next t ∧ t.response = some r ∧ r.status ≠ .ok) :=
  ⟨⟨_, _, rfl, rfl, by decide⟩, ⟨_, _, rfl, rfl, by decide⟩⟩

theorem witness_IdleEngineHoldsNoObject : State.reset.phase = .idle := rfl

/-- A step that stays in Finalized, and the two kinds of step that leave it. -/
theorem witness_FinalizedIsTerminal :
    (∃ t, (sample .finalized .sha256 []).phase = .finalized ∧
      step ((sample .finalized .sha256 []).setInput [.command 0xC000]) = .next t ∧ t.phase = .finalized) ∧
    (∃ t, step ((sample .finalized .sha256 []).setInput [.reset]) = .next t ∧ t.phase ≠ .finalized) ∧
    (∃ t, step ((sample .finalized .sha256 []).setInput [.command 0x4000]) = .next t ∧ t.phase ≠ .finalized) :=
  ⟨⟨_, rfl, rfl, rfl⟩, ⟨_, rfl, by decide⟩, ⟨_, rfl, by decide⟩⟩

theorem witness_StepRunsTheDecodedCommand :
    (State.reset.setInput [.command 0x4001, .reset]).input = .command 0x4001 :: [.reset] ∧
    decode 0x4001 = .instr (.init .sha256) ∧ decode 0xC001 = .illegal .finalizeOperand := by decide

theorem witness_EngineStopsOnlyOnABrokenContract :
    ((∀ a b rest, State.reset.input ≠ .commandsTogether a b :: rest) ∧
      ∀ cw rest, State.reset.input ≠ .resetDuringCommand cw :: rest) ∧
    (State.reset.setInput [.commandsTogether 0x8161 0x8162]).input = [.commandsTogether 0x8161 0x8162] ∧
    (State.reset.setInput [.resetDuringCommand 0xC000]).input = [.resetDuringCommand 0xC000] :=
  ⟨⟨fun _ _ _ h => (by cases h), fun _ _ h => (by cases h)⟩, rfl, rfl⟩

/-- One step for each arm of the table: waiting, reset, INIT, FINALIZE in Accepting, and a failing word. -/
theorem witness_PhaseTransitionsAreComplete :
    (∃ t, step State.reset = .next t) ∧ (∃ t, step (State.reset.setInput [.reset]) = .next t) ∧
    (∃ t, step (State.reset.setInput [.command 0x4001]) = .next t ∧ t.phase = .accepting) ∧
    (∃ t, step ((sample .accepting .sha256 abc).setInput [.command 0xC000]) = .next t ∧ t.phase = .finalized) ∧
    (∃ t, step (State.reset.setInput [.command 0xC000]) = .next t ∧ t.phase = .idle) :=
  ⟨⟨_, rfl⟩, ⟨_, rfl⟩, ⟨_, rfl, rfl⟩,
    ⟨_, exec_finalize_accepting (s := (sample .accepting .sha256 abc).setInput []) rfl, rfl⟩, ⟨_, rfl, rfl⟩⟩

/-- INIT changes CFG, H, BUFLEN and LEN; APPEND changes a cell, BUFLEN and LEN. -/
theorem witness_EachRegisterHasItsWriters :
    (∃ t, step ((sample .accepting .sha256 abc).setInput [.command 0x4003]) = .next t ∧
      t.cfg ≠ .sha256 ∧ t.h ≠ (sample .accepting .sha256 abc).h ∧ t.bufLen ≠ 3 ∧ t.len ≠ 24) ∧
    (∃ t, step ((sample .accepting .sha256 abc).setInput [.command 0x8164]) = .next t ∧
      Memory.read t.buf 3 ≠ Memory.read (sample .accepting .sha256 abc).buf 3 ∧ t.bufLen ≠ 3 ∧ t.len ≠ 24) ∧
    (∀ rest, ((sample .accepting .sha256 abc).setInput [.command 0x8164]).input ≠ .reset :: rest) :=
  ⟨⟨_, rfl, by decide⟩, ⟨_, rfl, by decide⟩, fun _ h => (by cases h)⟩

theorem witness_DigestOutputMatchesTheResponse :
    (sample .finalized .sha256 []).digestValid = true ∧ (sample .accepting .sha256 abc).digestValid = false ∧
    (∃ t, exec .finalize (sample .accepting .sha256 abc) = .next t) ∧
    (∃ t, step ((sample .finalized .sha256 []).setInput [.command 0x8000]) = .next t ∧ t.digestValid = true) :=
  ⟨rfl, rfl, ⟨_, exec_finalize_accepting rfl⟩, ⟨_, rfl, rfl⟩⟩

theorem witness_ResetReturnsToIdle :
    ((sample .finalized .sha256 []).setInput [.reset, .command 0x4001]).input = .reset :: [.command 0x4001] := rfl

/-- The invariant holds of states in each phase, up to a full buffer less one byte. -/
theorem witness_EveryStepKeepsTheInvariant :
    (sample .accepting .sha256 (letters 63)).Inv ∧
    (∃ t, step ((sample .accepting .sha256 abc).setInput [.command 0x8164]) = .next t) := by
  refine ⟨⟨by decide +kernel, fun _ => ⟨setHash_small State.reset (config .sha256).initialHash, ?_, ?_, ?_, fun _ => ?_, fun h => ?_⟩,
    fun h => by cases h⟩, _, rfl⟩
  · exact of_decide_eq_true rfl
  · exact of_decide_eq_true rfl
  · rfl
  · rfl
  · cases h

theorem witness_finalized_inv : (sample .finalized .sha512 []).Inv :=
  ⟨rfl, fun _ => ⟨setHash_small State.reset (config .sha512).initialHash, of_decide_eq_true rfl, of_decide_eq_true rfl, rfl,
    fun h => (by cases h), fun _ => rfl⟩, fun h => by cases h⟩

/-- Two engines with the same object and different hidden bits: above the words, above LEN, and in a stale cell. -/
theorem witness_HiddenBitsAreNeverObserved :
    Memory.wf (sample .accepting .sha256 abc).buf = true ∧
    Memory.wf (((sample .accepting .sha256 abc).setLen 0x10000000000000018).memWrite 9 0xEE).buf = true ∧
    (sample .accepting .sha256 abc).holds =
      (((sample .accepting .sha256 abc).setLen 0x10000000000000018).memWrite 9 0xEE).holds ∧
    State.reset.holds = (sample .idle .sha512 abc).holds := by decide +kernel

theorem witness_LengthCountsTheAppends :
    (∀ i ∈ [Instr.append 0, .append0, .finalize, .append 1], ∀ u, i ≠ .init u) ∧
    (([Instr.append 0, .append0, .finalize, .append 1].takeWhile fun i => decide (i ≠ .finalize)).length = 2) := by
  refine ⟨?_, by decide⟩
  intro i h u e
  subst e
  simp at h

theorem witness_AppendsHasAClosedForm :
    (Memory.wf State.reset.buf = true ∧ State.reset.phase ≠ .accepting) ∧
    (Memory.wf (sample .accepting .sha256 abc).buf = true ∧ (sample .accepting .sha256 abc).phase = .accepting) := by
  decide

theorem witness_StreamingEqualsOneShot :
    Memory.wf State.reset.buf = true ∧ Memory.wf (sample .accepting .sha256 abc).buf = true := by decide

theorem witness_EnginesShareNothing :
    [State.reset, sample .accepting .sha256 abc][1]? = some (sample .accepting .sha256 abc) ∧
    step (sample .accepting .sha256 abc) = .next (sample .accepting .sha256 abc) ∧
    step (State.reset.setInput [.resetDuringCommand 0xC000]) = .fault .resetMidCommand ∧
    step (State.reset.setInput [.commandsTogether 0x8161 0x8162]) = .refused .simultaneousCommands :=
  ⟨rfl, rfl, rfl, rfl⟩

end Sys2Proof.Tests
end

section
/-! SUPPORT and the obligations of spec/00_scope.md: `BE` and `be` as R6 writes them, and the table of R4. -/

namespace Sys2Proof.Machine

open Sys2Proof

theorem bigEndian_getD_toNat {n j : Nat} (v : Nat) (h : j < n) :
    ((bigEndian n v).getD j 0).toNat = (v >>> (8 * (n - 1 - j))) &&& 0xFF := by
  have inRange : j < (bigEndian n v).length := by rwa [bigEndian_length]
  have mask : ∀ x, x &&& 0xFF = x % 2 ^ 8 := fun x => Nat.and_two_pow_sub_one_eq_mod x 8
  rw [List.getD_eq_getElem _ _ inRange, mask]
  simp [bigEndian]

theorem fromBigEndian_bigEndian_of_lt {n v : Nat} (h : v < 2 ^ (8 * n)) : fromBigEndian (bigEndian n v) = v := by
  rw [fromBigEndian_bigEndian, Nat.mod_eq_of_lt]
  rwa [Nat.pow_mul] at h

/-- One byte more at the end multiplies the weight of every byte before it by 256. -/
theorem fromBigEndian_eq_sum (s : List Byte) :
    fromBigEndian s = ∑ j ∈ Finset.range s.length, (s.getD j 0).toNat * 2 ^ (8 * (s.length - 1 - j)) := by
  induction s using List.reverseRecOn with
  | nil => rfl
  | append_singleton s b ih =>
    have last : (s ++ [b]).getD s.length 0 = b := by simp
    rw [fromBigEndian_snoc, ih, List.length_append, List.length_singleton, Finset.sum_range_succ, last,
      Finset.mul_sum]
    congr 1
    · refine Finset.sum_congr rfl fun j hj => ?_
      have lt : j < s.length := Finset.mem_range.mp hj
      have weight : 8 * (s.length + 1 - 1 - j) = 8 * (s.length - 1 - j) + 8 := by omega
      rw [List.getD_append _ _ _ _ lt, weight, Nat.pow_add]
      ring
    · simp

/-- Settles O9: the bytes of `BE` by its definition, the sum by induction on the last byte. -/
theorem bigEndianIsItsOwnInverse : Obligations.BigEndianIsItsOwnInverse := by
  unfold Obligations.BigEndianIsItsOwnInverse
  exact ⟨fun n v => ⟨bigEndian_length n v, fun _ h => bigEndian_getD_toNat v h, fromBigEndian_bigEndian_of_lt⟩,
    fun s => ⟨fromBigEndian_eq_sum s, bigEndian_fromBigEndian s⟩⟩

/-- Settles O8: each entry is read off the record of the variant; the number of constants is the number of rounds. -/
theorem parametersOfTheFourVariants : Obligations.ParametersOfTheFourVariants := by
  unfold Obligations.ParametersOfTheFourVariants
  refine ⟨fun v hv => ?engine32, fun v hv => ?engine64, rfl, rfl, rfl, rfl, rfl, rfl, rfl, rfl⟩
  case engine32 =>
    obtain rfl | rfl := List.mem_pair.mp hv <;> exact ⟨rfl, rfl, rfl, rfl, rfl, roundConstants_length _⟩
  case engine64 =>
    obtain rfl | rfl := List.mem_pair.mp hv <;> exact ⟨rfl, rfl, rfl, rfl, rfl, roundConstants_length _⟩

end Sys2Proof.Machine
end

section
/-! SUPPORT and the obligations of spec/10_state.md: what one command word and one step can do, the invariant each of
them keeps, what is observed of the registers, and the count that LEN is. -/

namespace Sys2Proof.Machine

open Sys2Proof

/-! ### What one command word and one step can do -/

/-- The next states of a command word, by what it decodes to and by the phase (R205): a command that runs, one case
each, or a word that fails with an error response. -/
inductive WordEffect (cw : CommandWord) (s : State) : State → Prop
  | init (v : Variant) (word : decode cw = .instr (.init v)) : WordEffect cw s ((s.newObject v).respondOk [])
  | append (b : Byte) (word : decode cw = .instr (.append b)) (phase : s.phase = .accepting) :
      WordEffect cw s ((s.acceptByte b).respondOk [])
  | append0 (word : decode cw = .instr .append0) (phase : s.phase = .accepting) : WordEffect cw s (s.respondOk [])
  | finalize (word : decode cw = .instr .finalize) (phase : s.phase = .accepting) :
      WordEffect cw s (s.finish.respondOk s.finish.digest)
  | fails (e : Status) (isError : e ≠ .ok) (notInit : ∀ v, decode cw ≠ .instr (.init v))
      (notRun : decode cw = .instr .finalize → s.phase ≠ .accepting) : WordEffect cw s (s.raiseError e)

theorem runWord_effect {cw : CommandWord} {s t : State} (h : runWord cw s = .next t) : WordEffect cw s t := by
  cases hd : decode cw with
  | illegal r =>
    rw [runWord_illegal s hd] at h
    cases h
    exact .fails _ (by decide) (by simp [hd]) (by simp [hd])
  | instr i =>
    obtain ⟨u, hu, effect⟩ := exec_cases i s
    rw [runWord_instr s hd, hu] at h
    cases h
    obtain ⟨v, rfl, rfl⟩ | ⟨b, rfl, hp, rfl⟩ | ⟨rfl, hp, rfl⟩ | ⟨rfl, hp, rfl⟩ | ⟨notInit, -, hp, rfl⟩ |
      ⟨reserved, rfl⟩ := effect
    · exact .init v hd
    · exact .append b hd hp
    · exact .append0 hd hp
    · exact .finalize hd hp
    · exact .fails _ (by decide) (by simpa [hd] using notInit) (fun _ => hp)
    · refine .fails _ (by decide) (fun v word => ?_) (fun word => ?_) <;>
        (cases hd.symm.trans word; cases reserved)

/-- A step that answers a next state waits, resets, or takes one command word. -/
theorem step_next_cases {s t : State} (h : step s = .next t) :
    (s.input = [] ∧ t = s) ∨
    (∃ rest, s.input = .reset :: rest ∧ t = (s.setInput rest).takeReset) ∨
    (∃ cw rest, s.input = .command cw :: rest ∧ WordEffect cw (s.setInput rest) t) := by
  obtain ⟨hin, e⟩ | ⟨cw, rest, hin, e⟩ | ⟨rest, hin, e⟩ | ⟨_, _, _, -, e⟩ | ⟨_, _, -, e⟩ := step_cases s <;>
    rw [e] at h
  · cases h; exact .inl ⟨hin, rfl⟩
  · exact .inr (.inr ⟨cw, rest, hin, runWord_effect h⟩)
  · cases h; exact .inr (.inl ⟨rest, hin, rfl⟩)
  · cases h
  · cases h

/-! ### The invariant (R24, R25, R154, R162) -/

theorem newObject_objectInv (s : State) (v : Variant) : (s.newObject v).objectInv :=
  ⟨setHash_small s (Machine.config v).initialHash, Nat.two_pow_pos _, blockSize_pos _, rfl,
    fun _ => by simp, fun h => by cases h⟩

theorem acceptByte_bufLen_toNat {s : State} (b : Byte) (wf : Memory.wf s.buf = true) :
    (s.acceptByte b).bufLen.toNat = if s.fill + 1 = blockSize s.width then 0 else s.fill + 1 := by
  have lt := fill_lt s
  split
  · next full => rw [(acceptByte_drained b wf full).1]; rfl
  · next short =>
    have room : s.fill + 1 < blockSize s.width := by omega
    rw [(acceptByte_buffered b room).1, toNat_ofNat_bufLen room]

theorem acceptByte_small {s : State} (b : Byte) (wf : Memory.wf s.buf = true)
    (small : ∀ x ∈ s.h.toList, x.toNat < 2 ^ s.width.bits) :
    ∀ x ∈ (s.acceptByte b).h.toList, x.toNat < 2 ^ s.width.bits := by
  have lt := fill_lt s
  by_cases full : s.fill + 1 = blockSize s.width
  · rw [(acceptByte_drained b wf full).2.2]
    exact compressBlock_small s _
  · rw [(acceptByte_buffered b (by omega)).2.1]
    exact small

/-- An accepted byte moves the counter and the buffer together. -/
theorem acceptByte_objectInv {s : State} (b : Byte) (wf : Memory.wf s.buf = true) (phase : s.phase = .accepting)
    (h : s.objectInv) : (s.acceptByte b).objectInv := by
  obtain ⟨small, lenLt, bufLenLt, bytes, position, -⟩ := h
  have counterLt : (s.len.toNat + 8) % 2 ^ lengthBits s.width < 2 ^ lengthBits s.width :=
    Nat.mod_lt _ (Nat.two_pow_pos _)
  have counter : (s.acceptByte b).len.toNat = (s.len.toNat + 8) % 2 ^ lengthBits s.width := by
    rw [acceptByte_len, length_eq lenLt, toNat_ofNat_len counterLt]
  have buffered := acceptByte_bufLen_toNat b wf
  rw [fill_eq bufLenLt] at buffered
  unfold State.objectInv
  rw [acceptByte_width, counter, buffered]
  refine ⟨acceptByte_small b wf small, counterLt, ?_, counter_bytes bytes, fun _ => ?_, fun hp => ?_⟩
  · have := blockSize_pos s.width
    split <;> omega
  · exact counter_position bufLenLt bytes (position phase)
  · rw [acceptByte_phase, phase] at hp
    cases hp

theorem finish_objectInv {s : State} (h : s.objectInv) : s.finish.objectInv := by
  obtain ⟨small, lenLt, -, bytes, -, -⟩ := h
  unfold State.objectInv
  rw [width_congr (finish_cfg s), finish_len]
  exact ⟨finish_small s small, lenLt, blockSize_pos _, bytes, fun hp => (by cases hp), fun _ => rfl⟩

/-- A success in Accepting or Finalized: the clause about Idle is void. -/
theorem Inv_respondOk {s : State} (d : List Byte) (wf : Memory.wf s.buf = true) (phase : s.phase ≠ .idle)
    (h : s.objectInv) : (s.respondOk d).Inv :=
  ⟨wf, fun _ => h, fun idle => absurd idle phase⟩

theorem Inv_raiseError {s : State} {e : Status} (isError : e ≠ .ok) (h : s.Inv) : (s.raiseError e).Inv := by
  obtain ⟨wf, object, -⟩ := h
  refine ⟨wf, object, fun _ r hr => ?_⟩
  cases hr
  exact isError

theorem takeReset_Inv (s : State) : s.takeReset.Inv :=
  ⟨rfl, fun h => absurd rfl h, fun _ _ h => by cases h⟩

theorem WordEffect.keeps_Inv {cw : CommandWord} {s t : State} (effect : WordEffect cw s t) (h : s.Inv) : t.Inv := by
  have ⟨wf, object, _⟩ := h
  have sound (phase : s.phase = .accepting) : s.objectInv := object (by simp [phase])
  cases effect with
  | init v => exact Inv_respondOk [] wf (by simp) (newObject_objectInv s v)
  | append b _ phase =>
    exact Inv_respondOk [] (acceptByte_wf b wf) (by simp [acceptByte_phase, phase])
      (acceptByte_objectInv b wf phase (sound phase))
  | append0 _ phase => exact Inv_respondOk [] wf (by simp [phase]) (sound phase)
  | finalize _ phase => exact Inv_respondOk _ (by rwa [finish_buf]) (by simp) (finish_objectInv (sound phase))
  | fails e isError => exact Inv_raiseError isError h

/-- Settles O44: by the three things a step can do; the counter and the buffer move together in `acceptByte_objectInv`. -/
theorem everyStepKeepsTheInvariant : Obligations.EveryStepKeepsTheInvariant := by
  unfold Obligations.EveryStepKeepsTheInvariant
  intro s t h hstep
  obtain ⟨-, rfl⟩ | ⟨rest, -, rfl⟩ | ⟨cw, rest, -, effect⟩ := step_next_cases hstep
  · exact h
  · exact takeReset_Inv _
  · exact effect.keeps_Inv h

/-! ### What is observed of the registers (R24, R34, R35) -/

theorem holds_eq {s s' : State} :
    s.holds = s'.holds ↔ s.phase = s'.phase ∧ (s.phase ≠ .idle → s.object = s'.object) := by
  unfold State.holds
  rw [Prod.mk.injEq]
  refine and_congr_right fun phase => ?_
  rw [← phase]
  by_cases idle : s.phase = .idle <;> simp [idle]

theorem acceptByte_object_congr {s s' : State} (b : Byte) (wf : Memory.wf s.buf = true)
    (wf' : Memory.wf s'.buf = true) (h : s.object = s'.object) :
    (s.acceptByte b).object = (s'.acceptByte b).object := by
  obtain ⟨cfg, hash, tail, length⟩ := object_eq.mp h
  have width : s'.width = s.width := width_congr cfg.symm
  refine object_eq.mpr ⟨by simpa using cfg, ?_, ?_, ?_⟩
  · rw [acceptByte_cfg, acceptByte_hash b rfl wf, acceptByte_hash b cfg.symm wf', hash, tail]
  · rw [acceptByte_nextTail b wf, acceptByte_nextTail b wf', width, tail]
  · rw [acceptByte_length, acceptByte_length, width, length]

theorem finish_object_congr {s s' : State} (h : s.object = s'.object) : s.finish.object = s'.finish.object := by
  obtain ⟨cfg, hash, tail, length⟩ := object_eq.mp h
  have width : s'.width = s.width := width_congr cfg.symm
  refine object_eq.mpr ⟨by simpa using cfg, ?_, ?_, ?_⟩
  · rw [finish_cfg, finish_hash s rfl, finish_hash s' cfg.symm, hash, tail, length, width]
  · rw [finish_tail, finish_tail]
  · rw [finish_length, finish_length, length]

theorem digest_of_object {s s' : State} (h : s.object = s'.object) : s.digest = s'.digest := by
  obtain ⟨cfg, hash, -, -⟩ := object_eq.mp h
  exact digest_of_hash cfg hash

/-- The object in the registers determines the output `digest`, R29. -/
theorem digestOutput_of_holds {s s' : State} (h : s.holds = s'.holds) : s.digestOutput = s'.digestOutput := by
  obtain ⟨phase, object⟩ := holds_eq.mp h
  unfold State.digestOutput State.digestValid
  rw [← phase]
  by_cases final : s.phase = .finalized
  · rw [digest_of_object (object (by simp [final]))]
  · simp [final]

/-- Two fresh objects of one variant are the same object. -/
theorem newObject_holds (v : Variant) (s s' : State) : (s.newObject v).holds = (s'.newObject v).holds :=
  holds_eq.mpr ⟨rfl, fun _ => (newObject_object v s).trans (newObject_object v s').symm⟩

/-- An instruction reads no more than the object: same object, same response, same object afterwards. -/
theorem exec_holds (i : Instr) {s s' : State} (wf : Memory.wf s.buf = true) (wf' : Memory.wf s'.buf = true)
    (h : s.holds = s'.holds) :
    ∃ t t', exec i s = .next t ∧ exec i s' = .next t' ∧ t.holds = t'.holds ∧ t.response = t'.response := by
  have ⟨samePhase, object⟩ := holds_eq.mp h
  have runs (phase : s.phase = .accepting) : s'.phase = .accepting ∧ s.object = s'.object :=
    ⟨samePhase ▸ phase, object (by simp [phase])⟩
  have failsToo (phase : s.phase ≠ .accepting) : s'.phase ≠ .accepting := samePhase ▸ phase
  cases i with
  | init v => exact ⟨_, _, exec_init v s, exec_init v s', newObject_holds v s s', rfl⟩
  | append b =>
    by_cases phase : s.phase = .accepting
    · obtain ⟨phase', same⟩ := runs phase
      refine ⟨_, _, exec_append_accepting b phase, exec_append_accepting b phase', holds_eq.mpr ⟨?_, fun _ => ?_⟩, rfl⟩
      · simpa [acceptByte_phase] using samePhase
      · exact acceptByte_object_congr b wf wf' same
    · exact ⟨_, _, exec_append_other b phase, exec_append_other b (failsToo phase), h, rfl⟩
  | append0 =>
    by_cases phase : s.phase = .accepting
    · exact ⟨_, _, exec_append0_accepting phase, exec_append0_accepting (runs phase).1, h, rfl⟩
    · exact ⟨_, _, exec_append0_other phase, exec_append0_other (failsToo phase), h, rfl⟩
  | finalize =>
    by_cases phase : s.phase = .accepting
    · obtain ⟨phase', same⟩ := runs phase
      have final := finish_object_congr same
      refine ⟨_, _, exec_finalize_accepting phase, exec_finalize_accepting phase',
        holds_eq.mpr ⟨rfl, fun _ => final⟩, ?_⟩
      rw [respondOk_response, respondOk_response, digest_of_object final]
    · exact ⟨_, _, exec_finalize_other phase, exec_finalize_other (failsToo phase), h, rfl⟩
  | reservedOp00 x => exact ⟨_, _, exec_reserved x s, exec_reserved x s', h, rfl⟩

theorem runWord_holds (cw : CommandWord) {s s' : State} (wf : Memory.wf s.buf = true) (wf' : Memory.wf s'.buf = true)
    (h : s.holds = s'.holds) :
    ∃ t t', runWord cw s = .next t ∧ runWord cw s' = .next t' ∧ t.holds = t'.holds ∧ t.response = t'.response := by
  cases hd : decode cw with
  | instr i =>
    rw [runWord_instr s hd, runWord_instr s' hd]
    exact exec_holds i wf wf' h
  | illegal r => exact ⟨_, _, runWord_illegal s hd, runWord_illegal s' hd, h, rfl⟩

/-- Settles O45: a command word keeps "holds the same object", and the object determines the digest output. -/
theorem hiddenBitsAreNeverObserved : Obligations.HiddenBitsAreNeverObserved := by
  unfold Obligations.HiddenBitsAreNeverObserved
  intro cw s s' wf wf' h
  obtain ⟨t, t', ht, ht', same, answer⟩ := runWord_holds cw wf wf' h
  exact ⟨t, t', ht, ht', runWord_wf wf ht, runWord_wf wf' ht', same, answer, digestOutput_of_holds same⟩

/-- Settles O20: INIT writes every register of the object, whatever they held. -/
theorem initForgetsThePast : Obligations.InitForgetsThePast := by
  unfold Obligations.InitForgetsThePast
  intro v s s' t t' ht ht'
  cases ht
  cases ht'
  exact ⟨rfl, rfl, newObject_holds v s s', Option.some_ne_none _, rfl, rfl⟩

/-! ### The phase after a step (R21) -/

/-- Settles O39: the table of R21 is read off what a step can do. -/
theorem phaseTransitionsAreComplete : Obligations.PhaseTransitionsAreComplete := by
  unfold Obligations.PhaseTransitionsAreComplete
  refine ⟨fun s t hstep => ?_, rfl, rfl, rfl, fun p => by cases p <;> decide⟩
  obtain ⟨hin, rfl⟩ | ⟨rest, hin, rfl⟩ | ⟨cw, rest, hin, effect⟩ := step_next_cases hstep
  · simp [hin]
  · simp [hin]
  · rw [hin]
    cases effect with
    | init v word => simp [word]
    | append b word => simp [word, acceptByte_phase]
    | append0 word => simp [word]
    | finalize word phase =>
      have accepting : s.phase = .accepting := phase
      simp [word, accepting]
    | fails e _ notInit notRun =>
      dsimp only
      split
      · next v word => exact absurd word (notInit v)
      · next word => exact (if_neg (notRun word)).symm
      · rfl

/-! ### The writers of each register (R20) -/

section Writers

variable {cw : CommandWord} {s t : State}

theorem WordEffect.cfg_writer (effect : WordEffect cw s t) (ne : t.cfg ≠ s.cfg) :
    ∃ v, decode cw = .instr (.init v) := by
  cases effect with
  | init v word => exact ⟨v, word⟩
  | append b => exact absurd (acceptByte_cfg s b) ne
  | append0 => exact absurd rfl ne
  | finalize => exact absurd (finish_cfg s) ne
  | fails => exact absurd rfl ne

theorem WordEffect.h_writer (effect : WordEffect cw s t) (ne : t.h ≠ s.h) :
    (∃ v, decode cw = .instr (.init v)) ∨
    (∃ b, decode cw = .instr (.append b) ∧ s.fill + 1 = blockSize s.width ∧ s.phase = .accepting) ∨
    (decode cw = .instr .finalize ∧ s.phase = .accepting) := by
  cases effect with
  | init v word => exact .inl ⟨v, word⟩
  | append b word phase =>
    by_cases full : s.fill + 1 = blockSize s.width
    · exact .inr (.inl ⟨b, word, full, phase⟩)
    · have room : s.fill + 1 < blockSize s.width := by have := fill_lt s; omega
      exact absurd (acceptByte_buffered b room).2.1 ne
  | append0 => exact absurd rfl ne
  | finalize word phase => exact .inr (.inr ⟨word, phase⟩)
  | fails => exact absurd rfl ne

theorem WordEffect.bufLen_writer (effect : WordEffect cw s t) (ne : t.bufLen ≠ s.bufLen) :
    (∃ v, decode cw = .instr (.init v)) ∨ (∃ b, decode cw = .instr (.append b) ∧ s.phase = .accepting) ∨
    (decode cw = .instr .finalize ∧ s.phase = .accepting) := by
  cases effect with
  | init v word => exact .inl ⟨v, word⟩
  | append b word phase => exact .inr (.inl ⟨b, word, phase⟩)
  | append0 => exact absurd rfl ne
  | finalize word phase => exact .inr (.inr ⟨word, phase⟩)
  | fails => exact absurd rfl ne

theorem WordEffect.len_writer (effect : WordEffect cw s t) (ne : t.len ≠ s.len) :
    (∃ v, decode cw = .instr (.init v)) ∨ (∃ b, decode cw = .instr (.append b) ∧ s.phase = .accepting) := by
  cases effect with
  | init v word => exact .inl ⟨v, word⟩
  | append b word phase => exact .inr ⟨b, word, phase⟩
  | append0 => exact absurd rfl ne
  | finalize => exact absurd (finish_len s) ne
  | fails => exact absurd rfl ne

/-- A cell that reads otherwise is the one at BUFLEN, and an APPEND stored into it. -/
theorem WordEffect.cell_writer (effect : WordEffect cw s t) {a : Nat}
    (ne : Memory.read t.buf a ≠ Memory.read s.buf a) :
    a = s.fill ∧ ∃ b, decode cw = .instr (.append b) ∧ s.phase = .accepting := by
  cases effect with
  | init => exact absurd rfl ne
  | append b word phase =>
    refine ⟨?_, b, word, phase⟩
    by_contra elsewhere
    rw [respondOk_buf, acceptByte_buf] at ne
    exact ne (Memory.read_write_other s.buf b elsewhere)
  | append0 => exact absurd rfl ne
  | finalize => exact absurd (congrArg (Memory.read · a) (finish_buf s)) ne
  | fails => exact absurd rfl ne

end Writers

/-- Settles O40: a waiting step changes nothing, and a command word has one lemma per register. -/
theorem eachRegisterHasItsWriters : Obligations.EachRegisterHasItsWriters := by
  unfold Obligations.EachRegisterHasItsWriters
  intro s t hstep noReset
  obtain ⟨-, rfl⟩ | ⟨rest, hin, -⟩ | ⟨cw, rest, hin, effect⟩ := step_next_cases hstep
  · exact ⟨absurd rfl, absurd rfl, absurd rfl, absurd rfl, fun _ => absurd rfl⟩
  · exact absurd hin (noReset rest)
  · refine ⟨fun ne => ?_, fun ne => ⟨cw, rest, hin, effect.h_writer ne⟩,
      fun ne => ⟨cw, rest, hin, effect.bufLen_writer ne⟩, fun ne => ⟨cw, rest, hin, effect.len_writer ne⟩,
      fun a ne => ?_⟩
    · obtain ⟨v, word⟩ := effect.cfg_writer ne
      exact ⟨cw, rest, v, hin, word⟩
    · obtain ⟨cell, b, word, phase⟩ := effect.cell_writer ne
      exact ⟨cell, cw, rest, b, hin, word, phase⟩

/-! ### The digest output (R29, R154) -/

theorem digestValid_iff (s : State) : s.digestValid = true ↔ s.phase = .finalized :=
  decide_eq_true_iff

theorem digestOutput_of_valid {s : State} (h : s.digestValid = true) : s.digestOutput = some s.digest :=
  if_pos h

theorem digestOutput_of_invalid {s : State} (h : s.digestValid = false) : s.digestOutput = none := by
  rw [State.digestOutput, h]
  rfl

theorem finalize_answers_digestOutput {s t : State} (phase : s.phase = .accepting) (h : exec .finalize s = .next t) :
    ∃ d, t.response = some ⟨.ok, d⟩ ∧ t.digestOutput = some d ∧ d.length = digestLength s.config := by
  rw [exec_finalize_accepting phase] at h
  cases h
  exact ⟨s.finish.digest, rfl, rfl, by rw [digest_length, config_congr (finish_cfg s)]⟩

/-- In Finalized only INIT and a reset touch the digest, and both end `digest_valid`. -/
theorem step_digestOutput {s t : State} (valid : s.digestValid = true) (h : step s = .next t)
    (stays : t.digestValid = true) : t.digestOutput = s.digestOutput := by
  rw [digestValid_iff] at valid stays
  have notAccepting : s.phase ≠ .accepting := by simp [valid]
  obtain ⟨-, rfl⟩ | ⟨rest, -, rfl⟩ | ⟨cw, rest, -, effect⟩ := step_next_cases h
  · rfl
  · cases stays
  · cases effect with
    | init => cases stays
    | append b _ phase => exact absurd phase notAccepting
    | append0 _ phase => exact absurd phase notAccepting
    | finalize _ phase => exact absurd phase notAccepting
    | fails => rfl

/-- Settles O41: the response and the output are the digest of the same hash words, and nothing but INIT and a reset
moves them in Finalized. -/
theorem digestOutputMatchesTheResponse : Obligations.DigestOutputMatchesTheResponse := by
  unfold Obligations.DigestOutputMatchesTheResponse
  exact ⟨fun s => ⟨digestValid_iff s, digestOutput_of_invalid⟩, fun _ _ => finalize_answers_digestOutput,
    fun _ _ => step_digestOutput⟩

/-! ### LEN counts the APPEND commands (R25) -/

/-- Is the instruction an `APPEND b`? -/
def isAppend : Instr → Bool
  | .append _ => true
  | _ => false

/-- The APPEND commands before the first FINALIZE: those that succeed when the list starts in Accepting and holds no
INIT. -/
def acceptedAppends (p : List Instr) : Nat :=
  (p.takeWhile fun i => decide (i ≠ .finalize)).countP isAppend

@[simp] theorem acceptedAppends_finalize (p : List Instr) : acceptedAppends (.finalize :: p) = 0 := by
  simp [acceptedAppends]

@[simp] theorem acceptedAppends_append (b : Byte) (p : List Instr) :
    acceptedAppends (.append b :: p) = acceptedAppends p + 1 := by
  simp [acceptedAppends, List.countP_cons, isAppend]

@[simp] theorem acceptedAppends_append0 (p : List Instr) : acceptedAppends (.append0 :: p) = acceptedAppends p := by
  simp [acceptedAppends, isAppend]

@[simp] theorem acceptedAppends_reservedOp00 (x : BitVec 14) (p : List Instr) :
    acceptedAppends (.reservedOp00 x :: p) = acceptedAppends p := by
  simp [acceptedAppends, isAppend]

theorem execAll_cons {i : Instr} (p : List Instr) {s t : State} (h : exec i s = .next t) :
    execAll (i :: p) s = execAll p t := by
  rw [execAll, h]

/-- Outside Accepting a run without INIT changes neither CFG nor LEN: every command fails. -/
theorem execAll_rejected (p : List Instr) : ∀ {s : State}, s.phase ≠ .accepting → (∀ i ∈ p, ∀ u, i ≠ .init u) →
    ∃ t, execAll p s = .next t ∧ t.cfg = s.cfg ∧ t.len = s.len := by
  induction p with
  | nil => intro s _ _; exact ⟨s, rfl, rfl, rfl⟩
  | cons i p ih =>
    intro s phase noInit
    obtain ⟨head, rest⟩ := List.forall_mem_cons.mp noInit
    obtain ⟨e, he⟩ : ∃ e, exec i s = .next (s.raiseError e) := by
      cases i with
      | init v => exact absurd rfl (head v)
      | append b => exact ⟨_, exec_append_other b phase⟩
      | append0 => exact ⟨_, exec_append0_other phase⟩
      | finalize => exact ⟨_, exec_finalize_other phase⟩
      | reservedOp00 x => exact ⟨_, exec_reserved x s⟩
    rw [execAll_cons p he]
    exact ih (s := s.raiseError e) phase rest

theorem add_eight_mod_add (m n k : Nat) : ((n + 8) % m + 8 * k) % m = (n + 8 * (k + 1)) % m := by
  rw [Nat.mod_add_mod]
  congr 1
  ring

/-- From Accepting, a run without INIT adds 8 to LEN for each APPEND before the first FINALIZE. -/
theorem execAll_counts (p : List Instr) : ∀ {s : State}, s.phase = .accepting → (∀ i ∈ p, ∀ u, i ≠ .init u) →
    ∃ t, execAll p s = .next t ∧ t.cfg = s.cfg ∧
      t.length = (s.length + 8 * acceptedAppends p) % 2 ^ lengthBits s.width := by
  induction p with
  | nil => intro s _ _; exact ⟨s, rfl, rfl, (Nat.mod_eq_of_lt (length_lt s)).symm⟩
  | cons i p ih =>
    intro s phase noInit
    obtain ⟨head, rest⟩ := List.forall_mem_cons.mp noInit
    cases i with
    | init v => exact absurd rfl (head v)
    | append b =>
      obtain ⟨t, run, cfg, length⟩ := ih (s := (s.acceptByte b).respondOk []) ((acceptByte_phase s b).trans phase) rest
      have before : ((s.acceptByte b).respondOk []).length = (s.length + 8) % 2 ^ lengthBits s.width :=
        acceptByte_length s b
      have width : ((s.acceptByte b).respondOk []).width = s.width := acceptByte_width s b
      refine ⟨t, (execAll_cons p (exec_append_accepting b phase)).trans run, cfg.trans (acceptByte_cfg s b), ?_⟩
      rw [length, before, width, acceptedAppends_append]
      exact add_eight_mod_add _ _ _
    | append0 =>
      rw [execAll_cons p (exec_append0_accepting phase), acceptedAppends_append0]
      exact ih (s := s.respondOk []) phase rest
    | finalize =>
      obtain ⟨t, run, cfg, len⟩ :=
        execAll_rejected p (s := s.finish.respondOk s.finish.digest) (by simp) rest
      have cfg : t.cfg = s.cfg := cfg.trans (finish_cfg s)
      have len : t.len = s.len := len.trans (finish_len s)
      refine ⟨t, (execAll_cons p (exec_finalize_accepting phase)).trans run, cfg, ?_⟩
      rw [length_congr cfg len, acceptedAppends_finalize]
      exact (Nat.mod_eq_of_lt (length_lt s)).symm
    | reservedOp00 x =>
      rw [execAll_cons p (exec_reserved x s), acceptedAppends_reservedOp00]
      exact ih (s := s.raiseError .illegalCommand) phase rest

/-- Settles O47: by induction on the run after INIT, in Accepting up to the first FINALIZE and outside it from there. -/
theorem lengthCountsTheAppends : Obligations.LengthCountsTheAppends := by
  unfold Obligations.LengthCountsTheAppends
  intro v p s noInit
  obtain ⟨t, run, cfg, length⟩ := execAll_counts p (s := (s.newObject v).respondOk []) rfl noInit
  have start : ((s.newObject v).respondOk []).length = 0 := newObject_length s v
  rw [start, Nat.zero_add] at length
  exact ⟨t, run, cfg, length⟩

/-! ### Reset (R33, R230) -/

/-- Settles O42: the step on a reset event is `State.takeReset`, which leaves Idle. -/
theorem resetReturnsToIdle : Obligations.ResetReturnsToIdle := by
  unfold Obligations.ResetReturnsToIdle
  intro s rest hin
  have reset : step s = .next (s.setInput rest).takeReset := by rw [step, hin]; rfl
  exact ⟨_, reset, rfl, rfl, rfl, rfl, rfl⟩

/-- Settles O43: the reset state is one that a reset event leaves. -/
theorem resetStateIsSound : Obligations.ResetStateIsSound := by
  unfold Obligations.ResetStateIsSound
  exact ⟨rfl, rfl, rfl, rfl, takeReset_Inv State.reset⟩

end Sys2Proof.Machine
end

section
/-! SUPPORT and the obligations of spec/20_memory.md: the cells of BUF and the words of a block (R52), the program the
host presents (R57, R80), and engines side by side (R60, R211). -/

namespace Sys2Proof.Machine

open Sys2Proof

/-! ### Words of the block in BUF (R52, R111) -/

/-- A part of a run of cells is the shorter run at its place. -/
theorem slice_cells (s : State) {i j n : Nat} (inside : j ≤ n) : slice (s.cells 0 n) i j = s.cells i (j - i) := by
  have size : (slice (s.cells 0 n) i j).length = (s.cells i (j - i)).length := by
    rw [slice_length _ (by rwa [State.cells_length]), State.cells_length]
  refine List.ext_getElem size fun k _ _ => ?_
  simp [slice, State.cells_getElem]

/-- Sub-chunk `k` lies in the block. -/
theorem subChunk_inside (e : Width) {k : Nat} (hk : k < 16) : wordBytes e * (k + 1) ≤ blockSize e := by
  rw [blockSize_eq, Nat.mul_comm 16]
  exact Nat.mul_le_mul_left _ hk

theorem subChunk_size (w k : Nat) : w * (k + 1) - w * k = w := by
  rw [Nat.mul_succ, Nat.add_sub_cancel_left]

/-- The `w/8` bytes of a sub-chunk fit a word, so the word width cuts nothing of the integer they stand for. -/
theorem blockWords_getD_toNat {e : Width} {block : List Byte} {k : Nat} (size : block.length = blockSize e)
    (hk : k < 16) : ((blockWords e block).getD k 0).toNat =
      fromBigEndian (slice block (wordBytes e * k) (wordBytes e * (k + 1))) := by
  have fits : fromBigEndian (slice block (wordBytes e * k) (wordBytes e * (k + 1))) < 2 ^ e.bits := by
    have lt := fromBigEndian_lt (slice block (wordBytes e * k) (wordBytes e * (k + 1)))
    rwa [slice_length block (size ▸ subChunk_inside e hk), subChunk_size, show 256 = 2 ^ 8 from rfl, ← Nat.pow_mul,
      ← bits_eq] at lt
  rw [List.getD_eq_getElem _ _ (by rwa [blockWords_length])]
  simpa [blockWords] using Nat.mod_eq_of_lt fits

theorem blockWords_block_eq_memRead (s : State) {k : Nat} (hk : k < 16) :
    ((blockWords s.width s.block).getD k 0).toNat = s.memRead (wordBytes s.width * k) (wordBytes s.width) := by
  rw [blockWords_getD_toNat (block_length s) hk, State.block, slice_cells s (subChunk_inside s.width hk), subChunk_size,
    State.memRead]

/-- Settles O10: by the laws of `Memory.write`, and since a word of the block is the run of its cells. -/
theorem bufferAccessPrimitives : Obligations.BufferAccessPrimitives := by
  unfold Obligations.BufferAccessPrimitives
  refine ⟨fun s i b wf inBlock => ?_, fun s k hk => blockWords_block_eq_memRead s hk⟩
  have inBuf : i < bufCells := inBlock.trans_le (blockSize_le s.width)
  exact ⟨Memory.write s.buf i b, rfl, Memory.write_wf b inBuf wf, Memory.read_write_same b wf,
    fun _ ne => Memory.read_write_other s.buf b ne⟩

/-! ### The decoder on an encoded instruction (R78) -/

theorem encode_append_toNat (b : Byte) : (encode (.append b)).toNat = 0x8100 + b.toNat := by
  have lt := b.isLt
  simp [encode]
  omega

theorem encode_reservedOp00_toNat (x : BitVec 14) : (encode (.reservedOp00 x)).toNat = x.toNat := by
  have lt := x.isLt
  simp [encode]
  omega

theorem decode_encode_append (b : Byte) : decode (encode (.append b)) = .instr (.append b) := by
  have lt := b.isLt
  have operand : (encode (.append b)).imm8 = b := by
    apply BitVec.eq_of_toNat_eq
    rw [CommandWord.imm8_toNat, encode_append_toNat]
    omega
  obtain ⟨op00, op01, op10, rsv, -, valid, -, -⟩ := CommandWord.tests (encode (.append b))
  rw [encode_append_toNat] at op00 op01 op10 rsv valid
  rw [decode, if_neg (op00.not.mpr (by omega)), if_neg (not_not.mpr (rsv.mpr (by omega))),
    if_neg (op01.not.mpr (by omega)), if_pos (op10.mpr (by omega)), if_pos (valid.mpr (by omega)), operand]

theorem decode_encode_reservedOp00 (x : BitVec 14) :
    decode (encode (.reservedOp00 x)) = .instr (.reservedOp00 x) := by
  have lt := x.isLt
  have operand : (encode (.reservedOp00 x)).extractLsb' 0 14 = x := by
    apply BitVec.eq_of_toNat_eq
    rw [BitVec.extractLsb'_toNat, encode_reservedOp00_toNat, Nat.shiftRight_zero, Nat.mod_eq_of_lt lt]
  obtain ⟨op00, -⟩ := CommandWord.tests (encode (.reservedOp00 x))
  rw [encode_reservedOp00_toNat] at op00
  rw [decode, if_pos (op00.mpr (by omega)), operand]

/-- The decoder reads back what the encoder wrote. -/
theorem decode_encode (i : Instr) : decode (encode i) = .instr i := by
  cases i with
  | init v => cases v <;> decide
  | append b => exact decode_encode_append b
  | append0 => decide
  | finalize => decide
  | reservedOp00 x => exact decode_encode_reservedOp00 x

/-! ### A presented program (R57, R80) -/

/-- One step takes the first word of a presented program, and the rest is presented to what it leaves. -/
theorem step_present {i : Instr} (p : List Instr) {s t : State} (h : exec i s = .next t) :
    step (s.present (i :: p)) = .next (t.present p) := by
  have first : (s.present (i :: p)).input = .command (encode i) :: (s.present p).input := rfl
  have rest : t.present p = t.setInput (s.present p).input := by
    rw [State.present, exec_input h]
    rfl
  rw [step_command first, runWord_instr _ (decode_encode i), rest]
  exact exec_setInput (s := s) (s.present p).input h

/-- Settles O46: by induction on the program, one step for its first instruction. -/
theorem presentedProgramsRunInOrder : Obligations.PresentedProgramsRunInOrder := by
  unfold Obligations.PresentedProgramsRunInOrder
  intro p
  induction p with
  | nil => exact fun _ => rfl
  | cons i p ih =>
    intro s
    obtain ⟨t, ht, -⟩ := exec_cases i s
    calc runProgram (i :: p) s = runProgram p t := run_next (step_present p ht)
      _ = execAll p t := ih t
      _ = execAll (i :: p) s := (execAll_cons p ht).symm

/-! ### Engines side by side (R60, R211) -/

/-- A function applied to the next state of an outcome; a stop stays the same stop. -/
def mapNext {σ τ φ ρ : Type} (f : σ → τ) : Host.Outcome σ φ ρ → Host.Outcome τ φ ρ
  | .next s => .next (f s)
  | .fault r => .fault r
  | .refused r => .refused r

theorem stepEngine_zero (s : State) (rest : List State) :
    stepEngine 0 (s :: rest) = mapNext (· :: rest) (step s) := by
  rw [stepEngine]
  cases step s <;> rfl

theorem stepEngine_succ (j : Nat) (s : State) (rest : List State) :
    stepEngine (j + 1) (s :: rest) = mapNext (s :: ·) (stepEngine j rest) := by
  rw [stepEngine]
  cases stepEngine j rest <;> rfl

/-- A step of engine `j` is its own step, put back in its place. -/
theorem stepEngine_eq {es : List State} {j : Nat} {s : State} (h : es[j]? = some s) :
    stepEngine j es = mapNext (es.set j) (step s) := by
  induction es generalizing j with
  | nil => cases h
  | cons e rest ih =>
    cases j with
    | zero =>
      cases h
      exact stepEngine_zero s rest
    | succ j =>
      rw [stepEngine_succ, ih h]
      cases step s <;> rfl

/-- Settles O51: the list after the step is the old one with the engine's own next state at place `j`. -/
theorem enginesShareNothing : Obligations.EnginesShareNothing := by
  unfold Obligations.EnginesShareNothing
  intro es j s h
  have present : j < es.length := (List.getElem?_eq_some_iff.mp h).1
  rw [stepEngine_eq h]
  refine ⟨fun s' hs => ?_, fun r hr => ?_, fun r hr => ?_⟩
  · rw [hs]
    exact ⟨es.set j s', rfl, List.getElem?_set_self present, List.length_set,
      fun k ne => List.getElem?_set_ne ne.symm⟩
  · rw [hr]
    rfl
  · rw [hr]
    rfl

end Sys2Proof.Machine
end

section
/-! SUPPORT and the obligations of spec/30_encoding.md: the decoder and the encoder undo each other (R78), the rows of
the opcode table and the legal words (R72 to R77), the response to every command word (R79), and the one-shot program
(R82, R157). -/

namespace Sys2Proof.Machine

open Sys2Proof

/-! ### Decoder and encoder (R78) -/

theorem encode_init_toNat (v : Variant) : (encode (.init v)).toNat = 0x4000 + v.code.toNat := by
  have lt := v.code.isLt
  simp [encode]
  omega

/-- A command word is its number. -/
theorem encode_eq_iff {i : Instr} {cw : CommandWord} : encode i = cw ↔ (encode i).toNat = cw.toNat :=
  BitVec.toNat_inj.symm

/-- The operand of INIT, as the decoder cuts it out of `imm8`, is the low two bits of the word's number (R76). -/
theorem imm8_variant_toNat (cw : CommandWord) : (cw.imm8.extractLsb' 0 2).toNat = cw.toNat % 4 := by
  rw [BitVec.extractLsb'_toNat, CommandWord.imm8_toNat, Nat.shiftRight_zero]
  omega

/-- On each branch of the decoder that answers an instruction, the tests passed fix every bit outside the operand. -/
theorem encode_of_decode {cw : CommandWord} {i : Instr} (h : decode cw = .instr i) : encode i = cw := by
  have lt := cw.isLt
  obtain ⟨op00, op01, op10, rsv, valid0, valid1, imm0, imm6⟩ := CommandWord.tests cw
  rw [encode_eq_iff]
  simp only [decode, ne_eq, op00, op01, op10, rsv, valid0, valid1, imm0, imm6] at h
  split_ifs at h with reserved rsvBits init initOperand append valid imm finalize <;> cases h
  · rw [encode_reservedOp00_toNat, BitVec.extractLsb'_toNat, Nat.shiftRight_zero]
    omega
  · rw [encode_init_toNat, Variant.code_ofCode, imm8_variant_toNat]
    omega
  · rw [encode_append_toNat, CommandWord.imm8_toNat]
    omega
  · show 0x8000 = cw.toNat
    omega
  · show 0xC000 = cw.toNat
    omega

/-- The words that decode to an instruction: its encoding, and no other. -/
theorem decode_eq_instr_iff {cw : CommandWord} {i : Instr} : decode cw = .instr i ↔ encode i = cw :=
  ⟨encode_of_decode, fun h => h ▸ decode_encode i⟩

/-- Settles O28: by the constructors of `Instr`, in `decode_encode`. -/
theorem decodeUndoesEncode : Obligations.DecodeUndoesEncode := by
  unfold Obligations.DecodeUndoesEncode
  exact decode_encode

/-- Settles O29: by the branches of the decoder; the encoder is injective since the decoder undoes it. -/
theorem encodeUndoesDecode : Obligations.EncodeUndoesDecode := by
  unfold Obligations.EncodeUndoesDecode
  refine ⟨fun _ _ => encode_of_decode, fun i j same => ?_⟩
  have meaning : Decoded.instr i = .instr j := by rw [← decode_encode i, same, decode_encode j]
  exact Decoded.instr.inj meaning

/-! ### The rows of the opcode table (R72 to R75, R77 a) -/

/-- Row INIT, with the variant in the low two bits. -/
theorem decode_init_iff (cw : CommandWord) :
    (∃ v : Variant, decode cw = .instr (.init v) ∧ v.code = cw.extractLsb' 0 2) ↔ cw.toNat / 4 = 0x1000 := by
  simp only [decode_eq_instr_iff, encode_eq_iff, encode_init_toNat]
  constructor
  · rintro ⟨v, word, -⟩
    have := v.code.isLt
    omega
  · intro row
    refine ⟨Variant.ofCode (cw.extractLsb' 0 2), ?_, Variant.code_ofCode _⟩
    rw [Variant.code_ofCode, BitVec.extractLsb'_toNat, Nat.shiftRight_zero]
    omega

/-- Row APPEND, with the byte in the low eight bits. -/
theorem decode_append_iff (cw : CommandWord) :
    decode cw = .instr (.append (cw.extractLsb' 0 8)) ↔ cw.toNat / 256 = 0x81 := by
  rw [decode_eq_instr_iff, encode_eq_iff, encode_append_toNat, BitVec.extractLsb'_toNat, Nat.shiftRight_zero]
  omega

/-- Row RESERVED_OP00, with every bit below `op` kept. -/
theorem decode_reservedOp00_iff (cw : CommandWord) :
    decode cw = .instr (.reservedOp00 (cw.extractLsb' 0 14)) ↔ cw.toNat / 2 ^ 14 = 0 := by
  rw [decode_eq_instr_iff, encode_eq_iff, encode_reservedOp00_toNat, BitVec.extractLsb'_toNat, Nat.shiftRight_zero]
  omega

/-- A row without operand is the one word its match is. -/
theorem fullMask_iff (cw word : CommandWord) : cw &&& 0xFFFF#16 = word ↔ word = cw := by
  rw [show 0xFFFF#16 = BitVec.allOnes 16 from rfl, BitVec.and_allOnes, eq_comm]

/-- Settles O26: a row's mask and match, and the decoder, both fix the same quotient of the word's number. -/
theorem tableRowsSelectTheirWords : Obligations.TableRowsSelectTheirWords := by
  unfold Obligations.TableRowsSelectTheirWords
  refine ⟨fun cw => ?_, rfl, rfl, rfl, rfl, fun _ => rfl, rfl, rfl⟩
  obtain ⟨rowInit, rowAppend, rowReserved⟩ := CommandWord.row_tests cw
  exact ⟨rowInit.trans (decode_init_iff cw).symm, rowAppend.trans (decode_append_iff cw).symm,
    (fullMask_iff cw _).trans (decode_eq_instr_iff (i := .append0)).symm,
    (fullMask_iff cw _).trans (decode_eq_instr_iff (i := .finalize)).symm,
    rowReserved.trans (decode_reservedOp00_iff cw).symm⟩

/-! ### The legal words (R77) -/

/-- A legal word is the encoding of one of the four commands. -/
theorem legal_iff_encode {cw : CommandWord} : legal cw = true ↔ ∃ i : Instr, i.wellFormed = true ∧ encode i = cw := by
  constructor
  · intro h
    unfold legal at h
    split at h
    · next i word => exact ⟨i, h, encode_of_decode word⟩
    · cases h
  · rintro ⟨i, command, rfl⟩
    rw [legal, decode_encode]
    exact command

/-- The numbers of the legal words. -/
abbrev legalNumber (n : Nat) : Prop :=
  (0x4000 ≤ n ∧ n ≤ 0x4003) ∨ (0x8100 ≤ n ∧ n ≤ 0x81FF) ∨ n = 0x8000 ∨ n = 0xC000

theorem legal_iff_legalNumber {cw : CommandWord} : legal cw = true ↔ legalNumber cw.toNat := by
  rw [legal_iff_encode]
  constructor
  · rintro ⟨i, command, rfl⟩
    cases i with
    | init v =>
      have := v.code.isLt
      rw [encode_init_toNat]
      exact .inl (by omega)
    | append b =>
      have := b.isLt
      rw [encode_append_toNat]
      exact .inr (.inl (by omega))
    | append0 => exact .inr (.inr (.inl rfl))
    | finalize => exact .inr (.inr (.inr rfl))
    | reservedOp00 x => cases command
  · rintro (inits | appends | append0 | finalize)
    · obtain ⟨v, word, -⟩ := (decode_init_iff cw).mpr (by omega)
      exact ⟨.init v, rfl, encode_of_decode word⟩
    · exact ⟨_, rfl, encode_of_decode ((decode_append_iff cw).mpr (by omega))⟩
    · exact ⟨.append0, rfl, encode_eq_iff.mpr append0.symm⟩
    · exact ⟨.finalize, rfl, encode_eq_iff.mpr finalize.symm⟩

/-- The cases (a) to (e) of R77, on the word's number. -/
abbrev illegalNumber (n : Nat) : Prop :=
  n / 2 ^ 14 = 0 ∨ n / 2 ^ 9 % 32 ≠ 0 ∨
  (n / 2 ^ 14 = 1 ∧ (n / 2 ^ 8 % 2 = 1 ∨ n / 2 ^ 2 % 64 ≠ 0)) ∨
  (n / 2 ^ 14 = 2 ∧ n / 2 ^ 8 % 2 = 0 ∧ n % 256 ≠ 0) ∨
  (n / 2 ^ 14 = 3 ∧ (n / 2 ^ 8 % 2 = 1 ∨ n % 256 ≠ 0))

theorem not_legalNumber_iff {n : Nat} (word : n < 2 ^ 16) : ¬ legalNumber n ↔ illegalNumber n := by
  unfold legalNumber illegalNumber
  omega

theorem legal_eq_false_iff {cw : CommandWord} : legal cw = false ↔ illegalNumber cw.toNat := by
  rw [← not_legalNumber_iff cw.isLt, ← legal_iff_legalNumber, Bool.not_eq_true]

/-- The legal words, counted range by range. -/
theorem card_legal : ((Finset.range (2 ^ 16)).filter fun n => legal (BitVec.ofNat 16 n) = true).card = 262 := by
  have ranges : ((Finset.range (2 ^ 16)).filter fun n => legal (BitVec.ofNat 16 n) = true) =
      Finset.Icc 0x4000 0x4003 ∪ (Finset.Icc 0x8100 0x81FF ∪ {0x8000, 0xC000}) := by
    ext n
    simp only [Finset.mem_filter, Finset.mem_range, legal_iff_legalNumber, BitVec.toNat_ofNat, Finset.mem_union,
      Finset.mem_Icc, Finset.mem_insert, Finset.mem_singleton]
    unfold legalNumber
    omega
  rw [ranges, Finset.card_union_of_disjoint, Finset.card_union_of_disjoint, Nat.card_Icc, Nat.card_Icc]
  · rfl
  · rw [Finset.disjoint_left]
    simp
    omega
  · rw [Finset.disjoint_left]
    simp
    omega

/-- An illegal word is answered alike, whichever case rejects it (R202). -/
theorem runWord_not_legal {cw : CommandWord} (s : State) (h : legal cw = false) :
    runWord cw s = .next (s.raiseError .illegalCommand) := by
  unfold legal at h
  split at h
  · next i word =>
    rw [runWord_instr s word]
    cases i with
    | reservedOp00 x => exact exec_reserved x s
    | init | append | append0 | finalize => cases h
  · next r word => exact runWord_illegal s word

/-- Settles O27: the legal words are the encodings of the commands, which lie in the four ranges. -/
theorem exactlyTheseWordsAreLegal : Obligations.ExactlyTheseWordsAreLegal := by
  unfold Obligations.ExactlyTheseWordsAreLegal
  exact ⟨card_legal, fun cw => ⟨legal_iff_legalNumber, legal_eq_false_iff⟩, fun _ s => runWord_not_legal s⟩

/-- Settles O24: the row's meaning is the IllegalCommand response and nothing else. -/
theorem reservedOperationIsIllegal : Obligations.ReservedOperationIsIllegal := by
  unfold Obligations.ReservedOperationIsIllegal
  exact exec_reserved

/-- Settles O30: each word decoded, encoded or classified by evaluation. -/
theorem writtenWordsDecode : Obligations.WrittenWordsDecode := by
  unfold Obligations.WrittenWordsDecode
  decide

/-! ### The response to a command word (R79) -/

/-- A command word always gets a next state. -/
theorem runWord_next (cw : CommandWord) (s : State) : ∃ t, runWord cw s = .next t := by
  cases hd : decode cw with
  | instr i =>
    obtain ⟨t, ht, -⟩ := exec_cases i s
    exact ⟨t, (runWord_instr s hd).trans ht⟩
  | illegal r => exact ⟨_, runWord_illegal s hd⟩

/-- What R79 says of the response `r` to the word `cw` in the state `s`, when the engine is in `t` after it. -/
abbrev AnswerShape (cw : CommandWord) (s t : State) (r : Response) : Prop :=
  (r.status ≠ .ok → r.data = []) ∧ (decode cw ≠ .instr .finalize → r.data = []) ∧
  (decode cw = .instr .finalize → r.status = .ok → r.data = t.digest ∧ r.data.length = digestLength s.config)

/-- Every command word leaves the host's side alone and is answered. -/
theorem WordEffect.answers {cw : CommandWord} {s t : State} (effect : WordEffect cw s t) :
    t.input = s.input ∧ ∃ r, t.response = some r ∧ AnswerShape cw s t r := by
  cases effect with
  | init v word => exact ⟨newObject_input s v, _, rfl, fun _ => rfl, fun _ => rfl, by simp [word]⟩
  | append b word => exact ⟨acceptByte_input s b, _, rfl, fun _ => rfl, fun _ => rfl, by simp [word]⟩
  | append0 word => exact ⟨rfl, _, rfl, fun _ => rfl, fun _ => rfl, by simp [word]⟩
  | finalize word =>
    have size : s.finish.digest.length = digestLength s.config := by
      rw [digest_length, config_congr (finish_cfg s)]
    exact ⟨finish_input s, _, rfl, fun notOk => absurd rfl notOk, fun notFinalize => absurd word notFinalize,
      fun _ _ => ⟨rfl, size⟩⟩
  | fails e isError => exact ⟨rfl, _, rfl, fun _ => rfl, fun _ => rfl, fun _ ok => absurd ok isError⟩

/-- Settles O32: by the effects of a command word, one response each. -/
theorem everyCommandIsAnswered : Obligations.EveryCommandIsAnswered := by
  unfold Obligations.EveryCommandIsAnswered
  refine ⟨fun cw rest s hin => ?_, rfl, rfl, rfl, fun st => by cases st <;> decide⟩
  obtain ⟨t, ht⟩ := runWord_next cw (s.setInput rest)
  obtain ⟨input, r, response, shape⟩ := (runWord_effect ht).answers
  exact ⟨t, r, (step_command hin).trans ht, input, response, shape⟩

/-! ### APPENDS in Accepting (R81, R156) -/

/-- The first byte of APPENDS, and then APPENDS of the rest: an APPEND0 after an APPEND changes nothing. -/
theorem execAll_appends_cons {s : State} (b : Byte) (bs : List Byte) (phase : s.phase = .accepting) :
    execAll (appends (b :: bs)) s = execAll (appends bs) ((s.acceptByte b).respondOk []) := by
  have first : execAll (appends (b :: bs)) s = execAll (bs.map Instr.append) ((s.acceptByte b).respondOk []) :=
    execAll_cons _ (exec_append_accepting b phase)
  rw [first]
  cases bs with
  | nil =>
    have accepting : ((s.acceptByte b).respondOk []).phase = .accepting := (acceptByte_phase s b).trans phase
    exact (execAll_cons [] (exec_append0_accepting accepting)).symm
  | cons => rfl

/-- What the engine of variant `v` is after the bytes `m` have been appended in Accepting: the full blocks of the old
tail and `m` are compressed in order, and the rest is buffered. -/
structure Absorbed (v : Variant) (m : List Byte) (s t : State) : Prop where
  phase : t.phase = .accepting
  cfg : t.cfg = v
  response : t.response = some ⟨.ok, []⟩
  wf : Memory.wf t.buf = true
  hash : t.hash (config v).width =
    compressAll (config v) (s.hash (config v).width) (blocksOf (config v).width (s.tail ++ m))
  tail : t.tail = (s.tail ++ m).drop
    ((s.tail.length + m.length) / blockSize (config v).width * blockSize (config v).width)
  length : t.length = (s.length + 8 * m.length) % 2 ^ lengthBits (config v).width

section Absorbed

variable {v : Variant} {s t : State}

theorem Absorbed.nil (cfg : s.cfg = v) (phase : s.phase = .accepting) (wf : Memory.wf s.buf = true) :
    Absorbed v [] s (s.respondOk []) := by
  subst cfg
  have lt := fill_lt s
  have short : s.tail.length < blockSize (config s.cfg).width := (tail_length s).trans_lt lt
  refine ⟨phase, rfl, rfl, wf, ?_, ?_, (Nat.mod_eq_of_lt (length_lt s)).symm⟩
  · rw [List.append_nil, blocksOf_short short]
    rfl
  · rw [List.append_nil, List.length_nil, Nat.add_zero, Nat.div_eq_of_lt short, Nat.zero_mul, List.drop_zero]
    rfl

theorem Absorbed.cons {b : Byte} {bs : List Byte} (cfg : s.cfg = v) (wf : Memory.wf s.buf = true)
    (rest : Absorbed v bs ((s.acceptByte b).respondOk []) t) : Absorbed v (b :: bs) s t := by
  have width : s.width = (config v).width := by rw [← cfg]; rfl
  have short : s.tail.length < blockSize (config v).width := by rw [tail_length, ← width]; exact fill_lt s
  have tail : ((s.acceptByte b).respondOk []).tail = nextTail (config v).width s.tail b :=
    width ▸ acceptByte_nextTail b wf
  have hash : ((s.acceptByte b).respondOk []).hash (config v).width = _ := acceptByte_hash b cfg wf
  have length : ((s.acceptByte b).respondOk []).length = (s.length + 8) % 2 ^ lengthBits (config v).width :=
    width ▸ acceptByte_length s b
  refine ⟨rest.phase, rest.cfg, rest.response, rest.wf, ?_, ?_, ?_⟩
  · rw [rest.hash, hash, tail, blocksOf_feed b bs short, compressAll_append]
  · rw [rest.tail, tail, drop_feed, List.length_cons]
  · rw [rest.length, length, List.length_cons, add_eight_mod_add]

/-- APPENDS in Accepting, in closed form. -/
theorem execAll_appends_absorbed (m : List Byte) : ∀ {s : State}, s.cfg = v → s.phase = .accepting →
    Memory.wf s.buf = true → ∃ t, execAll (appends m) s = .next t ∧ Absorbed v m s t := by
  induction m with
  | nil =>
    intro s cfg phase wf
    exact ⟨_, execAll_cons [] (exec_append0_accepting phase), .nil cfg phase wf⟩
  | cons b bs ih =>
    intro s cfg phase wf
    obtain ⟨t, run, rest⟩ := ih (s := (s.acceptByte b).respondOk []) ((acceptByte_cfg s b).trans cfg)
      ((acceptByte_phase s b).trans phase) (acceptByte_wf b wf)
    exact ⟨t, (execAll_appends_cons b bs phase).trans run, rest.cons cfg wf⟩

end Absorbed

/-! ### The one-shot program (R82, R157) -/

/-- The blocks of a padded message: its full blocks, then the padding of what is left of it. -/
theorem blocksOf_paddedMessage (e : Width) (m : List Byte) (len : Nat) :
    blocksOf e (paddedMessage e m len) =
      blocksOf e m ++ pad e (m.drop (m.length / blockSize e * blockSize e)) len := by
  have le : m.length / blockSize e * blockSize e ≤ m.length := Nat.div_mul_le_self _ _
  have whole : (m.take (m.length / blockSize e * blockSize e)).length = m.length / blockSize e * blockSize e := by
    rw [List.length_take, Nat.min_eq_left le]
  have short : (m.drop (m.length / blockSize e * blockSize e)).length < blockSize e := by
    rw [List.length_drop, Nat.mul_comm, ← Nat.mod_def]
    exact Nat.mod_lt _ (blockSize_pos e)
  have full : blocksOf e m = blocksOf e (m.take (m.length / blockSize e * blockSize e)) := by
    conv_lhs => rw [← List.take_append_drop (m.length / blockSize e * blockSize e) m]
    rw [blocksOf_append _ whole, blocksOf_short short, List.append_nil]
  conv_lhs => rw [← List.take_append_drop (m.length / blockSize e * blockSize e) m]
  rw [paddedMessage_append _ _ len whole, blocksOf_append _ whole, ← full, pad]

/-- FINALIZE after the bytes of a fresh object gives the one-shot hash. -/
theorem Absorbed.digest_finish {v : Variant} {m : List Byte} {s t : State}
    (absorbed : Absorbed v m ((s.newObject v).respondOk []) t) : t.finish.digest = oneShot v m := by
  have tail : ((s.newObject v).respondOk []).tail = [] := newObject_tail s v
  have length : ((s.newObject v).respondOk []).length = 0 := newObject_length s v
  have hash : ((s.newObject v).respondOk []).hash (config v).width = (config v).initialHash := newObject_hash s v
  have width : t.width = (config v).width := by rw [← absorbed.cfg]; rfl
  rw [digest_eq ((finish_cfg t).trans absorbed.cfg), finish_hash t absorbed.cfg, width, absorbed.hash, absorbed.tail,
    absorbed.length, tail, length, hash, ← compressAll_append, List.nil_append, List.length_nil, Nat.zero_add,
    Nat.zero_add, ← blocksOf_paddedMessage]
  rfl

/-- Settles O50: the program runs as its instructions do; APPENDS in closed form leaves the full blocks compressed and
the rest in the tail, whose padding FINALIZE compresses. -/
theorem streamingEqualsOneShot : Obligations.StreamingEqualsOneShot := by
  unfold Obligations.StreamingEqualsOneShot
  intro v m s wf
  obtain ⟨t, run, absorbed⟩ := execAll_appends_absorbed (v := v) m (s := (s.newObject v).respondOk []) rfl rfl wf
  have digest := absorbed.digest_finish
  have program : runProgram (digestProgram v m) s = .next (t.finish.respondOk t.finish.digest) := by
    calc runProgram (digestProgram v m) s = execAll (digestProgram v m) s := presentedProgramsRunInOrder _ s
      _ = execAll (appends m ++ [Instr.finalize]) ((s.newObject v).respondOk []) := execAll_cons _ (exec_init v s)
      _ = execAll [Instr.finalize] t := execAll_append [.finalize] run
      _ = .next (t.finish.respondOk t.finish.digest) := execAll_cons [] (exec_finalize_accepting absorbed.phase)
  have cfg : t.finish.cfg = v := (finish_cfg t).trans absorbed.cfg
  refine ⟨_, program, ?_, rfl, cfg, ?_, ?_⟩
  · rw [respondOk_response, digest]
  · rw [← digest]
    rfl
  · rw [← digest, digest_length, State.config, cfg]

end Sys2Proof.Machine
end

section
/-! SUPPORT and the obligations of spec/40_word_arithmetic.md: rotation, shift and addition on words of every width
(R91 to R93, R96). -/

namespace Sys2Proof.Machine

open Sys2Proof

/-! ### Rotation (R91, R96) -/

section Rotation

variable {w : Nat} (x : BitVec w)

@[simp] theorem rotr_zero (below : 0 < w) : rotr x 0 below = x := if_pos rfl

variable {n : Nat}

/-- The two shifts of R91, which the rule needs only for a positive amount. -/
theorem rotr_pos (below : n < w) (pos : 0 < n) : rotr x n below = x >>> n ||| x <<< (w - n) := if_neg pos.ne'

/-- Cutting the joined shifts to the width cuts only the left one: the right one is below `2^w` as it is. -/
theorem rotr_toNat (below : n < w) (pos : 0 < n) :
    (rotr x n below).toNat = ((x.toNat >>> n) ||| (x.toNat <<< (w - n))) % 2 ^ w := by
  have fits : x.toNat >>> n < 2 ^ w := (x >>> n).isLt
  rw [rotr_pos x below pos, BitVec.toNat_or, BitVec.toNat_ushiftRight, BitVec.toNat_shiftLeft, Nat.or_mod_two_pow,
    Nat.mod_eq_of_lt fits]

/-- A bit that stays below the top comes from the right shift, one that wraps around from the left shift. -/
theorem rotr_getLsbD (below : n < w) {i : Nat} (hi : i < w) :
    (rotr x n below).getLsbD i = x.getLsbD ((i + n) % w) := by
  rcases Nat.eq_zero_or_pos n with rfl | pos
  · rw [rotr_zero, Nat.add_zero, Nat.mod_eq_of_lt hi]
  rw [rotr_pos x below pos, BitVec.getLsbD_or, BitVec.getLsbD_ushiftRight, BitVec.getLsbD_shiftLeft, Nat.add_comm n i]
  rcases Nat.lt_or_ge (i + n) w with stays | wraps
  · have low : i < w - n := by omega
    simp [Nat.mod_eq_of_lt stays, low]
  · have high : ¬ i < w - n := by omega
    have place : (i + n) % w = i - (w - n) := by
      rw [Nat.mod_eq_sub_mod wraps, Nat.mod_eq_of_lt (by omega)]
      omega
    simp [place, BitVec.getLsbD_of_ge x _ wraps, high, hi]

end Rotation

/-- Settles O1: the bits in `rotr_getLsbD`, the value in `rotr_toNat`. -/
theorem rotateRightMovesEveryBit : Obligations.RotateRightMovesEveryBit := by
  unfold Obligations.RotateRightMovesEveryBit
  intro w x n below
  refine ⟨fun i hi => rotr_getLsbD x below hi, ?_, rotr_toNat x below⟩
  rintro rfl
  exact rotr_zero x below

/-! ### Shift (R92, R96) -/

theorem shr_toNat {w : Nat} (x : BitVec w) {n : Nat} (below : n < w) : (shr x n below).toNat = x.toNat / 2 ^ n := by
  rw [shr, BitVec.toNat_ushiftRight, Nat.shiftRight_eq_div_pow]

/-- A bit past the top reads as 0 on both sides. -/
theorem shr_getLsbD {w : Nat} (x : BitVec w) {n : Nat} (below : n < w) (i : Nat) :
    (shr x n below).getLsbD i = x.getLsbD (i + n) := by
  rw [shr, BitVec.getLsbD_ushiftRight, Nat.add_comm]

/-- Settles O2: the bits of the shifted word, of which those from place `w` on are 0. -/
theorem shiftRightIsFloorDivision : Obligations.ShiftRightIsFloorDivision := by
  unfold Obligations.ShiftRightIsFloorDivision
  intro w x n below
  refine ⟨shr_toNat x below, fun i _ => ?_⟩
  rw [shr_getLsbD]
  split
  next => rfl
  next past => exact BitVec.getLsbD_of_ge x _ (Nat.le_of_not_lt past)

/-! ### Addition (R93) -/

section Addition

variable {w : Nat}

theorem addWords_toNat (xs : List (BitVec w)) : (addWords xs).toNat = (xs.map BitVec.toNat).sum % 2 ^ w :=
  BitVec.toNat_ofNat _ _

theorem addWords_perm {xs ys : List (BitVec w)} (perm : xs.Perm ys) : addWords xs = addWords ys := by
  rw [addWords, addWords, (perm.map BitVec.toNat).sum_eq]

/-- Two operands: the sum of machine words. -/
theorem addWords_pair (x y : BitVec w) : addWords [x, y] = x + y :=
  BitVec.eq_of_toNat_eq (by simp [addWords_toNat])

/-- Reducing the two partial sums first does not change the sum modulo `2^w`. -/
theorem addWords_append (xs ys : List (BitVec w)) : addWords (xs ++ ys) = addWords xs + addWords ys := by
  refine BitVec.eq_of_toNat_eq ?_
  rw [BitVec.toNat_add, addWords_toNat, addWords_toNat, addWords_toNat, List.map_append, List.sum_append, Nat.add_mod]

/-- The largest word and 1: what is left of `2^w` is nothing. -/
theorem ofNat_pred_add_one (w : Nat) : BitVec.ofNat w (2 ^ w - 1) + 1 = 0 := by
  have carry : 2 ^ w - 1 + 1 = 2 ^ w := Nat.sub_add_cancel Nat.one_le_two_pow
  calc BitVec.ofNat w (2 ^ w - 1) + 1 = BitVec.ofNat w (2 ^ w - 1 + 1) := (BitVec.ofNat_add _ _).symm
    _ = BitVec.ofNat w (2 ^ w) := by rw [carry]
    _ = 0 := BitVec.eq_of_toNat_eq (by rw [BitVec.toNat_ofNat, Nat.mod_self]; rfl)

end Addition

/-- Settles O3: a sum depends neither on the order of its terms nor on where it is cut, and `ADD` of two words is `+`. -/
theorem additionIsModular : Obligations.AdditionIsModular := by
  unfold Obligations.AdditionIsModular
  intro w xs ys x
  refine ⟨addWords_toNat xs, addWords_perm, ?_, ?_, fun _ => ?_⟩
  · rw [addWords_pair, addWords_append]
  · rw [addWords_pair]
    exact BitVec.add_zero x
  · rw [addWords_pair, ofNat_pred_add_one]

end Sys2Proof.Machine
end

section
/-! SUPPORT and the obligations of spec/41_message_schedule.md: the small sigmas bit by bit (R112, R113), the first
sixteen words of the schedule (R111) and the words after them (R114). -/

namespace Sys2Proof.Machine

open Sys2Proof

/-! ### The small sigmas (R112, R113) -/

section Sigma

variable {w : Nat}

theorem xor3_getLsbD (x y z : BitVec w) (i : Nat) :
    (xor3 x y z).getLsbD i = xorBits (x.getLsbD i) (y.getLsbD i) (z.getLsbD i) := by
  rw [xor3, BitVec.getLsbD_xor, BitVec.getLsbD_xor]

/-- The shape of all four small sigmas: the rotations wrap, and the shift reads past the top. -/
theorem xor3_rotr_rotr_shr_getLsbD (x : BitVec w) {a b c i : Nat} (ha : a < w) (hb : b < w) (hc : c < w) (hi : i < w) :
    (xor3 (rotr x a ha) (rotr x b hb) (shr x c hc)).getLsbD i =
      xorBits (x.getLsbD ((i + a) % w)) (x.getLsbD ((i + b) % w)) (x.getLsbD (i + c)) := by
  rw [xor3_getLsbD, rotr_getLsbD x ha hi, rotr_getLsbD x hb hi, shr_getLsbD]

end Sigma

@[simp] theorem ssig0_zero (e : Width) : ssig0 e 0#e.bits = 0#e.bits := by cases e <;> decide

@[simp] theorem ssig1_zero (e : Width) : ssig1 e 0#e.bits = 0#e.bits := by cases e <;> decide

/-- Settles O5: the bits by the shape the four sigmas share; zero and all ones are closed words, which are computed. -/
theorem smallSigmasMixTheStatedBits : Obligations.SmallSigmasMixTheStatedBits := by
  unfold Obligations.SmallSigmasMixTheStatedBits
  refine ⟨fun x i hi => ⟨?_, ?_⟩, fun x i hi => ⟨?_, ?_⟩, fun e => ⟨ssig0_zero e, ssig1_zero e⟩, ?allOnes⟩
  case allOnes => decide
  all_goals exact xor3_rotr_rotr_shr_getLsbD x _ _ _ hi

/-! ### The first sixteen words (R111) -/

theorem slice_getD {α : Type} (s : List α) (d : α) {i j k : Nat} (inside : k < j - i) :
    (slice s i j).getD k d = s.getD (i + k) d := by
  rw [slice, List.getD_eq_getElem?_getD, List.getD_eq_getElem?_getD, List.getElem?_take_of_lt inside,
    List.getElem?_drop]

/-- The recurrence starts after the sixteen words of the block and leaves them as they are. -/
theorem wordAt_schedule_of_lt (v : Variant) (B : List Byte) {t : Nat} (ht : t < 16) :
    wordAt (schedule (config v) B) t = wordAt (blockWords (config v).width B) t :=
  wordAt_extendSchedule _ (by rwa [blockWords_length])

/-- The bytes are taken at their places in the whole sequence, the weights from the end of the slice. -/
theorem fromBigEndian_slice_eq_sum (s : List Byte) {i n : Nat} (inside : i + n ≤ s.length) :
    fromBigEndian (slice s i (i + n)) = ∑ j ∈ Finset.range n, (s.getD (i + j) 0).toNat * 2 ^ (8 * (n - 1 - j)) := by
  rw [fromBigEndian_eq_sum, slice_length s inside, Nat.add_sub_cancel_left]
  refine Finset.sum_congr rfl fun j hj => ?_
  have place : j < i + n - i := by simpa using hj
  rw [slice_getD s 0 place]

/-- Settles O11: the schedule keeps the words of the block, and each is the integer of its sub-chunk. -/
theorem firstSixteenWordsAreBigEndian : Obligations.FirstSixteenWordsAreBigEndian := by
  unfold Obligations.FirstSixteenWordsAreBigEndian
  intro v B size
  refine ⟨by rw [size, blockSize_eq], fun t ht => ?_⟩
  have inside : wordBytes (config v).width * t + wordBytes (config v).width ≤ B.length :=
    size ▸ subChunk_inside (config v).width ht
  rw [wordAt_schedule_of_lt v B ht, wordAt, blockWords_getD_toNat size ht, Nat.mul_succ,
    fromBigEndian_slice_eq_sum B inside]

/-! ### The later words (R114) -/

section Zero

variable {e : Width} {ws : List (Word e)}

theorem wordAt_of_all_zero (zero : ∀ x ∈ ws, x = 0) (t : Nat) : wordAt ws t = 0 := by
  rcases Nat.lt_or_ge t ws.length with written | unwritten
  · rw [wordAt, List.getD_eq_getElem _ _ written]
    exact zero _ (List.getElem_mem written)
  · exact List.getD_eq_default _ _ unwritten

theorem nextWord_of_all_zero (zero : ∀ x ∈ ws, x = 0) : nextWord ws = 0 := by
  simp [nextWord, wordAt_of_all_zero zero, addWords]

theorem extendSchedule_all_zero (n : Nat) (zero : ∀ x ∈ ws, x = 0) : ∀ x ∈ extendSchedule n ws, x = 0 := by
  induction n generalizing ws with
  | zero => exact zero
  | succ n ih =>
    refine ih (List.forall_mem_append.mpr ⟨zero, List.forall_mem_singleton.mpr ?_⟩)
    exact nextWord_of_all_zero zero

end Zero

@[simp] theorem fromBigEndian_replicate_zero (n : Nat) : fromBigEndian (List.replicate n 0#8) = 0 := by
  induction n with
  | zero => rfl
  | succ n ih => rw [List.replicate_succ', fromBigEndian_snoc, ih]; rfl

/-- Every sub-chunk of zero bytes is the integer 0. -/
theorem blockWords_replicate_zero (e : Width) (n : Nat) : ∀ x ∈ blockWords e (List.replicate n 0), x = 0 := by
  simp [blockWords, slice, List.drop_replicate, List.take_replicate]

/-- Settles O12: the recurrence holds of every word it writes, and it keeps a list of zero words one. -/
theorem scheduleObeysTheRecurrence : Obligations.ScheduleObeysTheRecurrence := by
  unfold Obligations.ScheduleObeysTheRecurrence
  intro v B
  refine ⟨schedule_length v B, fun t later ht => ?recurrence, ?zeroBlock⟩
  case recurrence =>
    have first := blockWords_length (config v).width B
    exact extendSchedule_recurrence _ first.ge (first.trans_le later) (by omega)
  case zeroBlock =>
    rintro rfl
    exact extendSchedule_all_zero _ (blockWords_replicate_zero _ _)

end Sys2Proof.Machine
end

section
/-! SUPPORT and the obligations of spec/42_compression_core.md: `Ch` and `Maj` (R121, R122), the big sigmas (R123,
R124), one round (R126) and the run of rounds of a compression (R125, R127, R128). -/

namespace Sys2Proof.Machine

open Sys2Proof

/-! ### The choice and the majority (R121, R122) -/

section Select

variable {w : Nat} (x y z : BitVec w)

theorem ch_getLsbD {i : Nat} (hi : i < w) :
    (ch x y z).getLsbD i = if x.getLsbD i then y.getLsbD i else z.getLsbD i := by
  rw [ch, BitVec.getLsbD_xor, BitVec.getLsbD_and, BitVec.getLsbD_and, BitVec.getLsbD_not]
  cases x.getLsbD i with
  | true => simp
  | false => simp [hi]

@[simp] theorem ch_zero : ch 0#w y z = z :=
  BitVec.eq_of_getLsbD_eq fun i hi => by rw [ch_getLsbD _ _ _ hi, BitVec.getLsbD_zero, if_neg Bool.false_ne_true]

@[simp] theorem ch_allOnes : ch (BitVec.allOnes w) y z = y :=
  BitVec.eq_of_getLsbD_eq fun i hi => by
    rw [ch_getLsbD _ _ _ hi, BitVec.getLsbD_allOnes, decide_eq_true hi, if_pos rfl]

@[simp] theorem ch_self : ch x y y = y :=
  BitVec.eq_of_getLsbD_eq fun i hi => by rw [ch_getLsbD _ _ _ hi, ite_self]

/-- The rule's XOR of the three pairwise ANDs, on single bits, is a count. -/
theorem xorBits_and_iff_two_le : ∀ a b c : Bool,
    xorBits (a && b) (a && c) (b && c) = true ↔ 2 ≤ a.toNat + b.toNat + c.toNat := by decide

theorem maj_getLsbD_iff (i : Nat) : (maj x y z).getLsbD i = true ↔
    2 ≤ (x.getLsbD i).toNat + (y.getLsbD i).toNat + (z.getLsbD i).toNat := by
  rw [maj, xor3_getLsbD, BitVec.getLsbD_and, BitVec.getLsbD_and, BitVec.getLsbD_and]
  exact xorBits_and_iff_two_le _ _ _

/-- The count does not depend on the order of the operands: here the first two are exchanged. -/
theorem maj_swap_first : maj x y z = maj y x z :=
  BitVec.eq_of_getLsbD_eq fun i _ => Bool.eq_iff_iff.mpr (by
    rw [maj_getLsbD_iff, maj_getLsbD_iff, Nat.add_comm (x.getLsbD i).toNat])

/-- And here the last two. -/
theorem maj_swap_last : maj x y z = maj x z y :=
  BitVec.eq_of_getLsbD_eq fun i _ => Bool.eq_iff_iff.mpr (by
    rw [maj_getLsbD_iff, maj_getLsbD_iff, Nat.add_right_comm])

@[simp] theorem maj_self_left : maj x x z = x := by
  rw [maj, xor3, BitVec.and_self, BitVec.xor_assoc, BitVec.xor_self, BitVec.xor_zero]

@[simp] theorem maj_zero_left : maj 0#w y z = y &&& z := by
  rw [maj, xor3, BitVec.zero_and, BitVec.zero_and, BitVec.xor_self, BitVec.zero_xor]

end Select

/-- Settles O4: the bits of `Ch` give its corner cases, and the count that `Maj` is gives its symmetry. -/
theorem chooseSelectsAndMajorityCounts : Obligations.ChooseSelectsAndMajorityCounts := by
  unfold Obligations.ChooseSelectsAndMajorityCounts
  exact fun w x y z => ⟨fun _ hi => ch_getLsbD x y z hi, fun i _ => maj_getLsbD_iff x y z i, ch_zero y z,
    ch_allOnes y z, ch_self x y, maj_self_left x z, maj_zero_left y z, maj_swap_first x y z, maj_swap_last x y z⟩

/-! ### The big sigmas (R123, R124) -/

section Sigma

variable {w : Nat}

/-- The shape of all four big sigmas: three rotations. -/
theorem xor3_rotr_rotr_rotr_getLsbD (x : BitVec w) {a b c i : Nat} (ha : a < w) (hb : b < w) (hc : c < w)
    (hi : i < w) : (xor3 (rotr x a ha) (rotr x b hb) (rotr x c hc)).getLsbD i =
      xorBits (x.getLsbD ((i + a) % w)) (x.getLsbD ((i + b) % w)) (x.getLsbD ((i + c) % w)) := by
  rw [xor3_getLsbD, rotr_getLsbD x ha hi, rotr_getLsbD x hb hi, rotr_getLsbD x hc hi]

@[simp] theorem zero_rotr {n : Nat} (below : n < w) : rotr 0#w n below = 0#w :=
  BitVec.eq_of_getLsbD_eq fun i hi => by rw [rotr_getLsbD _ below hi, BitVec.getLsbD_zero, BitVec.getLsbD_zero]

@[simp] theorem allOnes_rotr {n : Nat} (below : n < w) : rotr (BitVec.allOnes w) n below = BitVec.allOnes w :=
  BitVec.eq_of_getLsbD_eq fun i hi => by
    have inRange : (i + n) % w < w := Nat.mod_lt _ (Nat.zero_lt_of_lt hi)
    rw [rotr_getLsbD _ below hi, BitVec.getLsbD_allOnes, BitVec.getLsbD_allOnes, decide_eq_true inRange,
      decide_eq_true hi]

@[simp] theorem xor3_self (x : BitVec w) : xor3 x x x = x := by
  rw [xor3, BitVec.xor_self, BitVec.zero_xor]

end Sigma

section Fixed

variable (e : Width) {x : Word e} (fixed : ∀ (n : Nat) (below : n < e.bits), rotr x n below = x)

include fixed

/-- A word that every rotation fixes is its own image: the XOR of three copies of a word is that word. -/
theorem bsig0_of_rotr_fixed : bsig0 e x = x := by
  cases e <;> rw [bsig0, fixed, fixed, fixed, xor3_self]

theorem bsig1_of_rotr_fixed : bsig1 e x = x := by
  cases e <;> rw [bsig1, fixed, fixed, fixed, xor3_self]

end Fixed

/-- Settles O6: the bits by the shape the four sigmas share; every rotation fixes zero and all ones. -/
theorem bigSigmasMixTheStatedBits : Obligations.BigSigmasMixTheStatedBits := by
  unfold Obligations.BigSigmasMixTheStatedBits
  refine ⟨fun x i hi => ⟨?_, ?_⟩, fun x i hi => ⟨?_, ?_⟩, fun e => ?fixedWords⟩
  case fixedWords =>
    exact ⟨bsig0_of_rotr_fixed e fun _ => zero_rotr, bsig1_of_rotr_fixed e fun _ => zero_rotr,
      bsig0_of_rotr_fixed e fun _ => allOnes_rotr, bsig1_of_rotr_fixed e fun _ => allOnes_rotr⟩
  all_goals exact xor3_rotr_rotr_rotr_getLsbD x _ _ _ hi

/-! ### One round (R126) -/

theorem addWords_pair_toNat {w : Nat} (x y : BitVec w) : (addWords [x, y]).toNat = (x.toNat + y.toNat) % 2 ^ w := by
  rw [addWords_pair, BitVec.toNat_add]

section Round

variable {e : Width} (v : Working e)

theorem roundT1_toNat (k w : Word e) : (roundT1 v k w).toNat =
    (v.h.toNat + (bsig1 e v.e).toNat + (ch v.e v.f v.g).toNat + k.toNat + w.toNat) % 2 ^ e.bits := by
  rw [roundT1, addWords_toNat]
  simp [Nat.add_assoc]

theorem roundT2_toNat : (roundT2 v).toNat = ((bsig0 e v.a).toNat + (maj v.a v.b v.c).toNat) % 2 ^ e.bits :=
  addWords_pair_toNat _ _

end Round

/-- Settles O13: `T1` and `T2` are the model's own, and two of the eight variables are sums, the other six copies. -/
theorem roundFollowsItsEquations : Obligations.RoundFollowsItsEquations := by
  unfold Obligations.RoundFollowsItsEquations
  exact fun e v k w => ⟨(roundT1 v k w).toNat, (roundT2 v).toNat, roundT1_toNat v k w, roundT2_toNat v,
    addWords_pair_toNat _ _, rfl, rfl, rfl, addWords_pair_toNat _ _, rfl, rfl, rfl⟩

/-! ### The run of rounds (R125, R127, R128) -/

/-- One more pair of a round constant and a schedule word runs one more round, after all the earlier ones. -/
theorem runRounds_take_succ {e : Width} (v : Working e) {kw : List (Word e × Word e)} {t : Nat} (ht : t < kw.length) :
    runRounds v (kw.take (t + 1)) = roundStep (runRounds v (kw.take t)) kw[t].1 kw[t].2 := by
  rw [List.take_succ_eq_append_getElem ht, runRounds, List.foldl_append]
  rfl

section Run

variable (v : Variant) (H : HashWords (Word (config v).width)) (B : List Byte)

/-- The working variables after the first `t` rounds of `Compress(H, B)`. -/
def workingAfter (t : Nat) : Working (config v).width :=
  runRounds (loadWorking H) (((config v).roundConstants.zip (schedule (config v) B)).take t)

/-- There is one constant and one schedule word for each round. -/
theorem roundPairs_length : ((config v).roundConstants.zip (schedule (config v) B)).length = (config v).rounds := by
  rw [List.length_zip, roundConstants_length, schedule_length, Nat.min_self]

theorem workingAfter_succ {t : Nat} (ht : t < (config v).rounds) : workingAfter v H B (t + 1) =
    roundStep (workingAfter v H B t) ((config v).roundConstants.getD t 0) (wordAt (schedule (config v) B) t) := by
  have hk : t < (config v).roundConstants.length := ht.trans_eq (roundConstants_length v).symm
  have hw : t < (schedule (config v) B).length := ht.trans_eq (schedule_length v B).symm
  rw [workingAfter, runRounds_take_succ _ (ht.trans_eq (roundPairs_length v B).symm), List.getElem_zip, wordAt,
    List.getD_eq_getElem _ _ hk, List.getD_eq_getElem _ _ hw]
  rfl

/-- After `rounds` rounds no pair is left. -/
theorem compress_eq_feedForward : compress (config v) H B = feedForward H (workingAfter v H B (config v).rounds) := by
  rw [workingAfter, List.take_of_length_le (roundPairs_length v B).le]
  rfl

end Run

theorem feedForward_toNat {e : Width} (H : HashWords (Word e)) (v : Working e) :
    (feedForward H v).toList.map BitVec.toNat =
      [(H.h0.toNat + v.a.toNat) % 2 ^ e.bits, (H.h1.toNat + v.b.toNat) % 2 ^ e.bits,
       (H.h2.toNat + v.c.toNat) % 2 ^ e.bits, (H.h3.toNat + v.d.toNat) % 2 ^ e.bits,
       (H.h4.toNat + v.e.toNat) % 2 ^ e.bits, (H.h5.toNat + v.f.toNat) % 2 ^ e.bits,
       (H.h6.toNat + v.g.toNat) % 2 ^ e.bits, (H.h7.toNat + v.h.toNat) % 2 ^ e.bits] := by
  simp only [feedForward, HashWords.toList, List.map_cons, List.map_nil, addWords_pair_toNat]

/-- Settles O14: the run is the working variables after each number of rounds, of which the last are fed forward. -/
theorem compressionRunsEveryRoundInOrder : Obligations.CompressionRunsEveryRoundInOrder := by
  unfold Obligations.CompressionRunsEveryRoundInOrder
  intro v H B
  refine ⟨workingAfter v H B, rfl, fun _ ht => workingAfter_succ v H B ht, ?_⟩
  rw [compress_eq_feedForward, feedForward_toNat]

end Sys2Proof.Machine
end

section
/-! SUPPORT and the obligations of spec/43_padding_encoder.md: the zero fill (R142), the blocks of a padded tail (R144)
and the shape of the two-block case (R145). -/

namespace Sys2Proof.Machine

open Sys2Proof

/-! ### The zero fill (R142)

Marker and fill end where the length field begins: in the tail's own block when the field still fits there, in the
block after it otherwise. -/

section Fill

variable {e : Width} {n : Nat}

theorem zeroFill_of_fits (fits : n + 1 + lengthFieldSize e ≤ blockSize e) :
    n + 1 + zeroFill e n = blockSize e - lengthFieldSize e := by
  cases e <;> simp only [zeroFill, blockSize, lengthFieldSize, Width.bits] at fits ⊢ <;> omega

theorem zeroFill_of_spills (small : n < blockSize e) (spills : blockSize e < n + 1 + lengthFieldSize e) :
    n + 1 + zeroFill e n = blockSize e + (blockSize e - lengthFieldSize e) := by
  cases e <;> simp only [zeroFill, blockSize, lengthFieldSize, Width.bits] at small spills ⊢ <;> omega

theorem zeroFill_lt (e : Width) (n : Nat) : zeroFill e n < blockSize e := Nat.mod_lt _ (blockSize_pos e)

theorem lengthFieldSize_pos (e : Width) : 0 < lengthFieldSize e := by cases e <;> decide

/-- Where the length field begins is no whole block. -/
theorem fieldStart_mod (e : Width) :
    (blockSize e - lengthFieldSize e) % blockSize e = blockSize e - lengthFieldSize e :=
  Nat.mod_eq_of_lt (Nat.sub_lt (blockSize_pos e) (lengthFieldSize_pos e))

variable (small : n < blockSize e)
include small

theorem zeroFill_reaches_field : (n + 1 + zeroFill e n) % blockSize e = blockSize e - lengthFieldSize e := by
  rcases Nat.lt_or_ge (blockSize e) (n + 1 + lengthFieldSize e) with spills | fits
  · rw [zeroFill_of_spills small spills, Nat.add_mod_left, fieldStart_mod]
  · rw [zeroFill_of_fits fits, fieldStart_mod]

/-- No smaller fill reaches the field's position: when the tail and the marker stand past it, a fill must reach it in
the next block. -/
theorem zeroFill_le_of_reaches {k : Nat} (reaches : (n + 1 + k) % blockSize e = blockSize e - lengthFieldSize e) :
    zeroFill e n ≤ k := by
  rcases Nat.lt_or_ge (blockSize e) (n + 1 + lengthFieldSize e) with spills | fits
  · have fill := zeroFill_of_spills small spills
    have past : blockSize e ≤ n + 1 + k := by
      by_contra short
      rw [Nat.mod_eq_of_lt (Nat.lt_of_not_le short)] at reaches
      omega
    rw [Nat.mod_eq_sub_mod past] at reaches
    have le := Nat.mod_le (n + 1 + k - blockSize e) (blockSize e)
    omega
  · have fill := zeroFill_of_fits fits
    have le := Nat.mod_le (n + 1 + k) (blockSize e)
    omega

/-- The remainder as R142 writes it, of a difference that is negative when the padding spills. -/
theorem zeroFill_eq_emod :
    (zeroFill e n : Int) = ((blockSize e : Int) - lengthFieldSize e - 1 - n) % blockSize e := by
  have lt := zeroFill_lt e n
  have field := lengthField_lt e
  have inRange : (zeroFill e n : Int) % blockSize e = zeroFill e n := Int.emod_eq_of_lt (by omega) (by omega)
  rcases Nat.lt_or_ge (blockSize e) (n + 1 + lengthFieldSize e) with spills | fits
  · have fill := zeroFill_of_spills small spills
    have negative : (blockSize e : Int) - lengthFieldSize e - 1 - n = zeroFill e n - blockSize e := by omega
    rw [negative, Int.sub_emod_right, inRange]
  · have fill := zeroFill_of_fits fits
    have exactly : (blockSize e : Int) - lengthFieldSize e - 1 - n = zeroFill e n := by omega
    rw [exactly, inRange]

end Fill

theorem paddedMessage_getD_fill {e : Width} {T : List Byte} {L j : Nat} (d : Byte) (start : T.length + 1 ≤ j)
    (stop : j < T.length + 1 + zeroFill e T.length) : (paddedMessage e T L).getD j d = 0x00 := by
  have size : (T ++ [0x80#8]).length = T.length + 1 := by simp
  have inFill : j - (T.length + 1) < zeroFill e T.length := by omega
  rw [paddedMessage, List.append_assoc, List.getD_append_right _ _ _ _ (size ▸ start), size,
    List.getD_append _ _ _ _ (by rwa [List.length_replicate]), List.getD_replicate _ inFill]
  rfl

/-- Settles O15: marker and fill end where the length field begins, in the tail's block or the next. -/
theorem zeroFillIsTheLeast : Obligations.ZeroFillIsTheLeast := by
  unfold Obligations.ZeroFillIsTheLeast
  intro e n small
  have field := lengthField_lt e
  have fieldPos := lengthFieldSize_pos e
  refine ⟨zeroFill_reaches_field small, fun _ => zeroFill_le_of_reaches small, zeroFill_eq_emod small,
    Nat.le_sub_one_of_lt (zeroFill_lt e n), ?fillsNone, ?fillsMost, ?zeroBytes⟩
  case fillsNone =>
    intro last
    have fill := zeroFill_of_fits (e := e) (n := n) (by omega)
    omega
  case fillsMost =>
    intro first
    have fill := zeroFill_of_spills small (by omega)
    omega
  case zeroBytes =>
    rintro T L j rfl start stop
    exact paddedMessage_getD_fill _ start stop

/-! ### The blocks of a padded tail (R144, R145) -/

section Blocks

variable {e : Width} {T : List Byte} {q L : Nat}

theorem pad_flatten (whole : (paddedMessage e T L).length = q * blockSize e) :
    (pad e T L).flatten = paddedMessage e T L := blocksOf_flatten q _ whole

theorem pad_length (whole : (paddedMessage e T L).length = q * blockSize e) : (pad e T L).length = q := by
  rw [pad, blocksOf_count, whole, Nat.mul_div_cancel _ (blockSize_pos e)]

/-- The padded tail of the spill case, cut after the zeros that end the tail's block. -/
theorem paddedMessage_of_spills (small : T.length < blockSize e)
    (spills : blockSize e < T.length + 1 + lengthFieldSize e) :
    paddedMessage e T L =
      (T ++ [0x80] ++ List.replicate (blockSize e - 1 - T.length) 0) ++
        (List.replicate (blockSize e - lengthFieldSize e) 0 ++ bigEndian (lengthFieldSize e) L) := by
  have fill := zeroFill_of_spills small spills
  have cut : zeroFill e T.length = (blockSize e - 1 - T.length) + (blockSize e - lengthFieldSize e) := by omega
  simp only [paddedMessage, cut, List.replicate_add, List.append_assoc, BitVec.ofNat_eq_ofNat]

end Blocks

/-- Settles O16: the padded tail is one or two whole blocks long, and cutting whole blocks loses no byte. -/
theorem paddingMakesOneOrTwoBlocks : Obligations.PaddingMakesOneOrTwoBlocks := by
  unfold Obligations.PaddingMakesOneOrTwoBlocks
  intro e T L small fitsField
  obtain ⟨oneBlock, twoBlocks⟩ := paddedMessage_blocks L small
  have flatten : (pad e T L).flatten = paddedMessage e T L := by
    rcases Nat.lt_or_ge (blockSize e) (T.length + 1 + lengthFieldSize e) with spills | fits
    · exact pad_flatten (twoBlocks spills)
    · exact pad_flatten (oneBlock fits)
  exact ⟨zeroFill e T.length, bigEndian (lengthFieldSize e) L, rfl, zeroFill_eq_emod small, bigEndian_length _ _,
    fromBigEndian_bigEndian_of_lt fitsField, flatten, fun _ => length_of_mem_blocksOf,
    fun fits => pad_length (oneBlock fits), fun spills => pad_length (twoBlocks spills)⟩

/-- Settles O17: both parts of the cut padded tail are exactly one block. -/
theorem spilledPaddingHasThisShape : Obligations.SpilledPaddingHasThisShape := by
  unfold Obligations.SpilledPaddingHasThisShape
  intro e T L small _ spills
  have first : (T ++ [0x80] ++ List.replicate (blockSize e - 1 - T.length) (0 : Byte)).length = blockSize e := by
    simp only [List.length_append, List.length_singleton, List.length_replicate]
    omega
  have second : (List.replicate (blockSize e - lengthFieldSize e) (0 : Byte) ++
      bigEndian (lengthFieldSize e) L).length = blockSize e := by
    have field := lengthField_lt e
    rw [List.length_append, List.length_replicate, bigEndian_length]
    omega
  rw [pad, paddedMessage_of_spills small spills, blocksOf_append (q := 1) _ (by rw [first, Nat.one_mul]),
    blocksOf_one first, blocksOf_one second, List.singleton_append]

end Sys2Proof.Machine
end

section
/-! SUPPORT and the obligations of spec/44_streaming_digest.md: the digest bytes (R155), each command (R151 to R154,
R160), the commands that fail outside Accepting (R161, R162), and the streams of APPEND commands (R156, R158). -/

namespace Sys2Proof.Machine

open Sys2Proof

/-! ### The digest bytes (R155) -/

section Digest

variable (v : Variant) (H : HashWords (Word (config v).width))

theorem length_digest : (digest (config v) H).length = digestLength (config v) := by
  have size := digest_length ((State.reset.setCfg v).setHash H)
  rwa [digest_eq (v := v) rfl, hash_setHash] at size

/-- Each word has a serialization of one size, so those of the leading words come first in the bytes of all. -/
theorem digest_eq_take : digest (config v) H =
    (H.toList.map fun x => bigEndian (wordBytes (config v).width) x.toNat).flatten.take (digestLength (config v)) := by
  have size : digestLength (config v) = (((H.toList.map fun x => bigEndian (wordBytes (config v).width) x.toNat).map
      List.length).take (config v).outWords).sum := by
    rw [← length_digest v H, digest, List.length_flatMap, List.map_map, List.map_take]
    rfl
  rw [size, List.take_sum_flatten, ← List.map_take, digest, List.flatMap_def]

theorem digest_starts_with_h0 :
    ∃ rest, digest (config v) H = bigEndian (wordBytes (config v).width) H.h0.toNat ++ rest := by
  cases v <;> exact ⟨_, rfl⟩

/-- The first byte of a serialized word holds its top eight bits. -/
theorem bigEndian_word_first {e : Width} (x : Word e) :
    ((bigEndian (wordBytes e) x.toNat).getD 0 0).toNat = x.toNat / 2 ^ (e.bits - 8) := by
  have pos : 0 < wordBytes e := by cases e <;> decide
  have bits := bits_eq e
  have shift : 8 * (wordBytes e - 1 - 0) = e.bits - 8 := by omega
  have byte : x.toNat / 2 ^ (e.bits - 8) < 2 ^ 8 := by
    refine Nat.div_lt_of_lt_mul ?_
    rw [← Nat.pow_add, Nat.sub_add_cancel (by omega)]
    exact x.isLt
  rw [bigEndian_getD_toNat _ pos, shift, Nat.shiftRight_eq_div_pow, Nat.and_two_pow_sub_one_eq_mod _ 8,
    Nat.mod_eq_of_lt byte]

theorem digest_first_byte : ((digest (config v) H).getD 0 0).toNat = H.h0.toNat / 2 ^ ((config v).width.bits - 8) := by
  obtain ⟨rest, starts⟩ := digest_starts_with_h0 v H
  have inWord : 0 < (bigEndian (wordBytes (config v).width) H.h0.toNat).length := by
    rw [bigEndian_length]
    cases v <;> decide
  rw [starts, List.getD_append _ _ _ _ inWord, bigEndian_word_first]

end Digest

/-- Settles O18: the serializations of the words have one size, which fixes where the leading words end. -/
theorem digestIsTheLeadingBytes : Obligations.DigestIsTheLeadingBytes := by
  unfold Obligations.DigestIsTheLeadingBytes
  exact ⟨fun v H => ⟨List.flatMap_def, digest_eq_take v H, digest_first_byte v H⟩,
    rfl, length_digest .sha224, rfl, length_digest .sha256, rfl, length_digest .sha384, rfl, length_digest .sha512⟩

/-! ### INIT (R151) -/

/-- Settles O19: each register of the new object is read back as INIT wrote it. -/
theorem initCreatesTheObject : Obligations.InitCreatesTheObject := by
  unfold Obligations.InitCreatesTheObject
  intro v s
  exact ⟨_, exec_init v s, rfl, newObject_hash s v, newObject_fill s v, newObject_length s v, rfl, rfl, rfl,
    fun _ => rfl, rfl⟩

/-! ### The commands that need an object, outside Accepting (R161, R162) -/

/-- The three commands that need a digest object fail alike where there is none to change. -/
theorem exec_rejected {s : State} (phase : s.phase ≠ .accepting) :
    (∀ b, exec (.append b) s = .next { s with response := some ⟨.invalidState, []⟩ }) ∧
    exec .append0 s = .next { s with response := some ⟨.invalidState, []⟩ } ∧
    exec .finalize s = .next { s with response := some ⟨.invalidState, []⟩ } :=
  ⟨fun b => exec_append_other b phase, exec_append0_other phase, exec_finalize_other phase⟩

/-- Settles O35: Idle is not Accepting, and INIT asks for no phase. -/
theorem idleEngineHoldsNoObject : Obligations.IdleEngineHoldsNoObject := by
  unfold Obligations.IdleEngineHoldsNoObject
  intro s idle
  obtain ⟨append, append0, finalize⟩ := exec_rejected (s := s) (by simp [idle])
  exact ⟨append, append0, finalize, fun v => ⟨_, exec_init v s, rfl, rfl⟩⟩

/-- A command word that takes the engine out of Finalized is an INIT: no other runs there. -/
theorem WordEffect.init_of_leaves_finalized {cw : CommandWord} {s t : State} (effect : WordEffect cw s t)
    (final : s.phase = .finalized) (leaves : t.phase ≠ .finalized) : ∃ v, decode cw = .instr (.init v) := by
  have notAccepting : s.phase ≠ .accepting := by simp [final]
  cases effect with
  | init v word => exact ⟨v, word⟩
  | append _ _ phase => exact absurd phase notAccepting
  | append0 _ phase => exact absurd phase notAccepting
  | finalize _ phase => exact absurd phase notAccepting
  | fails => exact absurd final leaves

theorem step_leaves_finalized {s t : State} (final : s.phase = .finalized) (h : step s = .next t)
    (leaves : t.phase ≠ .finalized) :
    (∃ rest, s.input = .reset :: rest) ∨
    (∃ cw rest v, s.input = .command cw :: rest ∧ decode cw = .instr (.init v)) := by
  obtain ⟨-, rfl⟩ | ⟨rest, hin, -⟩ | ⟨cw, rest, hin, effect⟩ := step_next_cases h
  · exact absurd final leaves
  · exact .inl ⟨rest, hin⟩
  · obtain ⟨v, word⟩ := effect.init_of_leaves_finalized final leaves
    exact .inr ⟨cw, rest, v, hin, word⟩

/-- Settles O36: what fails changes nothing, and of the commands only INIT does not fail in Finalized. -/
theorem finalizedIsTerminal : Obligations.FinalizedIsTerminal := by
  unfold Obligations.FinalizedIsTerminal
  intro s final
  have valid : s.digestValid = true := (digestValid_iff s).mpr final
  have readable : s.digestOutput ≠ none := by simp [digestOutput_of_valid valid]
  obtain ⟨append, append0, finalize⟩ := exec_rejected (s := s) (by simp [final])
  exact ⟨append, append0, finalize,
    fun t h stays => ⟨step_digestOutput valid h ((digestValid_iff t).mpr stays), readable⟩,
    fun _ => step_leaves_finalized final⟩

/-! ### APPEND and APPEND0 in Accepting (R152, R153, R160) -/

/-- Settles O21: the byte is stored at BUFLEN, and either it is buffered or the block it fills is compressed. -/
theorem appendAddsOneByte : Obligations.AppendAddsOneByte := by
  unfold Obligations.AppendAddsOneByte
  intro b s wf
  refine ⟨exec_append_other b, fun phase => ⟨_, exec_append_accepting b phase, rfl, ?_⟩⟩
  have lt := fill_lt s
  have tail := acceptByte_tail b wf
  refine ⟨(acceptByte_phase s b).trans phase, acceptByte_cfg s b, acceptByte_input s b, ?stored, ?others,
    acceptByte_length s b, fun short => ?buffered, fun full => ?drained⟩
  case stored =>
    rw [respondOk_buf, acceptByte_buf]
    exact Memory.read_write_same (low := 0) b wf
  case others =>
    intro a other
    rw [respondOk_buf, acceptByte_buf]
    exact Memory.read_write_other s.buf b other
  case buffered =>
    obtain ⟨-, h, fill⟩ := acceptByte_buffered (s := s) b (by omega)
    exact ⟨fill, h, tail.trans (if_neg short)⟩
  case drained =>
    obtain ⟨-, fill, h⟩ := acceptByte_drained b wf full
    exact ⟨fill, tail.trans (if_pos full), (hash_congr h s.width).trans (hash_compressBlock s _)⟩

/-- An advance by less than the modulus is seen in the remainder. -/
theorem add_mod_ne {n k m : Nat} (pos : 0 < k) (small : k < m) (lt : n < m) : (n + k) % m ≠ n := by
  rcases Nat.lt_or_ge (n + k) m with below | wraps
  · rw [Nat.mod_eq_of_lt below]
    omega
  · rw [Nat.mod_eq_sub_mod wraps, Nat.mod_eq_of_lt (by omega)]
    omega

theorem eight_lt_counter (e : Width) : 8 < 2 ^ lengthBits e := by cases e <;> decide

/-- Settles O22: APPEND0 writes the response alone; APPEND 0x00 advances LEN, and 8 is no multiple of its modulus. -/
theorem emptyAppendChangesNothing : Obligations.EmptyAppendChangesNothing := by
  unfold Obligations.EmptyAppendChangesNothing
  refine fun s => ⟨exec_append0_accepting, exec_append0_other, fun phase t h => ?_⟩
  rw [exec_append_accepting 0 phase] at h
  cases h
  have length : ((s.acceptByte 0).respondOk []).length = (s.length + 8) % 2 ^ lengthBits s.width :=
    acceptByte_length s 0
  rw [length]
  exact add_mod_ne (by decide) (eight_lt_counter s.width) (length_lt s)

/-- Settles O25: APPEND adds 8 to LEN modulo the value it then reaches. -/
theorem lengthCounterWraps : Obligations.LengthCounterWraps := by
  unfold Obligations.LengthCounterWraps
  intro b s phase last
  refine ⟨_, exec_append_accepting b phase, (acceptByte_length s b).trans ?_, rfl⟩
  rw [last, Nat.sub_add_cancel (eight_lt_counter s.width).le, Nat.mod_self]

/-! ### FINALIZE (R154) -/

/-- A padded tail is one block or two. -/
theorem pad_cases {e : Width} {T : List Byte} (L : Nat) (small : T.length < blockSize e) :
    (∃ B, pad e T L = [B]) ∨ (∃ B B', pad e T L = [B, B']) := by
  obtain ⟨oneBlock, twoBlocks⟩ := paddedMessage_blocks L small
  rcases Nat.lt_or_ge (blockSize e) (T.length + 1 + lengthFieldSize e) with spills | fits
  · exact .inr (List.length_eq_two.mp (pad_length (twoBlocks spills)))
  · exact .inl (List.length_eq_one_iff.mp (pad_length (oneBlock fits)))

/-- Settles O23: FINALIZE compresses the blocks of `Pad` into H, and `Pad` has one block or two. -/
theorem finalizeReturnsTheDigest : Obligations.FinalizeReturnsTheDigest := by
  unfold Obligations.FinalizeReturnsTheDigest
  intro s
  refine ⟨exec_finalize_other, fun phase => ⟨_, exec_finalize_accepting phase, rfl, finish_fill s, finish_len s,
    finish_cfg s, finish_input s, fun a => congrArg (Memory.read · a) (finish_buf s), ?blocks, ?answer⟩⟩
  case blocks =>
    have hash : s.finish.hash s.width = compressAll s.config (s.hash s.width) (pad s.width s.tail s.length) :=
      finish_hash s rfl
    have small : s.tail.length < blockSize s.width := (tail_length s).trans_lt (fill_lt s)
    refine (pad_cases s.length small).imp ?_ ?_
    · rintro ⟨B, blocks⟩
      exact ⟨B, blocks, hash.trans (by rw [blocks]; rfl)⟩
    · rintro ⟨B, B', blocks⟩
      exact ⟨B, B', blocks, hash.trans (by rw [blocks]; rfl)⟩
  case answer =>
    rw [respondOk_response, digest_eq (finish_cfg s)]
    rfl

/-! ### APPENDS (R156, R158) -/

/-- Outside Accepting every command of APPENDS fails, and the last response is that of the first. -/
theorem execAll_appends_rejected (m : List Byte) {s : State} (phase : s.phase ≠ .accepting) :
    execAll (appends m) s = .next (s.raiseError .invalidState) := by
  have failed (bs : List Byte) :
      execAll (bs.map Instr.append) (s.raiseError .invalidState) = .next (s.raiseError .invalidState) := by
    induction bs with
    | nil => rfl
    | cons b bs ih => exact (execAll_cons _ (exec_append_other (s := s.raiseError .invalidState) b phase)).trans ih
  cases m with
  | nil => exact execAll_cons [] (exec_append0_other phase)
  | cons b bs => exact (execAll_cons _ (exec_append_other b phase)).trans (failed bs)

theorem Absorbed.fill {v : Variant} {m : List Byte} {s t : State} (absorbed : Absorbed v m s t) :
    t.fill = (s.tail.length + m.length) % blockSize (config v).width := by
  rw [← tail_length t, absorbed.tail, List.length_drop, List.length_append, Nat.mul_comm, ← Nat.mod_def]

/-- Settles O48: in Accepting the closed form is `Absorbed`; outside it every command fails. -/
theorem appendsHasAClosedForm : Obligations.AppendsHasAClosedForm := by
  unfold Obligations.AppendsHasAClosedForm
  intro m s wf
  refine ⟨execAll_appends_rejected m, fun phase => ?_⟩
  obtain ⟨t, run, absorbed⟩ := execAll_appends_absorbed (v := s.cfg) m rfl phase wf
  have tail := absorbed.tail
  have fill := absorbed.fill
  rw [tail_length] at tail fill
  exact ⟨t, run, absorbed.phase, absorbed.cfg, absorbed.response, absorbed.wf, absorbed.hash, tail, fill,
    absorbed.length⟩

theorem execAll_next (p : List Instr) : ∀ s : State, ∃ t, execAll p s = .next t := by
  induction p with
  | nil => exact fun s => ⟨s, rfl⟩
  | cons i p ih =>
    intro s
    obtain ⟨u, hu, -⟩ := exec_cases i s
    rw [execAll_cons p hu]
    exact ih u

/-- APPENDS does not read the response before it: it is never the empty program. -/
theorem execAll_appends_setResponse (m : List Byte) (s : State) (r : Option Response) :
    execAll (appends m) (s.setResponse r) = execAll (appends m) s := by
  cases m <;> simp only [appends, List.map_cons, execAll, exec_setResponse]

theorem exec_append0 (s : State) : ∃ r, exec .append0 s = .next (s.setResponse r) := by
  by_cases phase : s.phase = .accepting
  · exact ⟨_, exec_append0_accepting phase⟩
  · exact ⟨_, exec_append0_other phase⟩

/-- After APPENDS `m`, APPENDS `n` ends where APPENDS of both ends. -/
theorem execAll_appends_after (n m : List Byte) : ∀ {s t : State}, execAll (appends m) s = .next t →
    execAll (appends n) t = execAll (appends (m ++ n)) s := by
  induction m with
  | nil =>
    intro s t run
    obtain ⟨r, answer⟩ := exec_append0 s
    cases (execAll_cons [] answer).symm.trans run
    exact execAll_appends_setResponse n s r
  | cons b bs ih =>
    intro s t run
    by_cases phase : s.phase = .accepting
    · rw [execAll_appends_cons b bs phase] at run
      exact (ih run).trans (execAll_appends_cons b (bs ++ n) phase).symm
    · rw [execAll_appends_rejected _ phase] at run ⊢
      cases run
      exact execAll_appends_rejected n (s := s.raiseError .invalidState) phase

/-- An APPEND0 before APPENDS changes nothing that APPENDS reads. -/
theorem execAll_append0_appends (m : List Byte) (s : State) :
    execAll (.append0 :: appends m) s = execAll (appends m) s := by
  obtain ⟨r, answer⟩ := exec_append0 s
  rw [execAll_cons _ answer, execAll_appends_setResponse]

/-- Settles O49: the second sequence goes on where the first has ended, with an APPEND0 in between or without. -/
theorem chunkingDoesNotMatter : Obligations.ChunkingDoesNotMatter := by
  unfold Obligations.ChunkingDoesNotMatter
  intro m n s
  obtain ⟨t, run⟩ := execAll_next (appends m) s
  have joined := execAll_appends_after n m run
  rw [execAll_append _ run, execAll_append _ run, execAll_append0_appends]
  exact ⟨joined, joined⟩

/-! ### The step (R57, R150, R205) -/

/-- The number of an encoding is that encoding again. -/
theorem ofNat_encode (i : Instr) : BitVec.ofNat 16 ((encode i).toNat % 2 ^ 16) = encode i := by
  rw [Nat.mod_eq_of_lt (encode i).isLt, BitVec.ofNat_toNat, BitVec.setWidth_eq]

theorem step_withFetchWord (s : State) (i : Instr) : step (s.withFetchWord 16 (encode i).toNat) = exec i s := by
  rw [withFetchWord_fits s (Nat.mod_lt _ (by decide)), ofNat_encode, step_command (presentFirst_input s (encode i))]
  exact runWord_instr s (decode_encode i)

theorem decodeTableWord_encode (i : Instr) : decodeTableWord 16 (encode i).toNat = some i := by
  rw [decodeTableWord, if_pos (Nat.mod_lt _ (by decide)), ofNat_encode, decode_encode]

/-- Settles O37: a step on a presented word is `runWord`, and an encoding is a word that decodes to its instruction. -/
theorem stepRunsTheDecodedCommand : Obligations.StepRunsTheDecodedCommand := by
  unfold Obligations.StepRunsTheDecodedCommand
  refine ⟨fun s cw rest hin => ⟨fun i word => ?_, fun r word => ?_⟩,
    fun s i => ⟨step_withFetchWord s i, decodeTableWord_encode i⟩⟩
  · exact (step_command hin).trans (runWord_instr _ word)
  · exact (step_command hin).trans (runWord_illegal _ word)

end Sys2Proof.Machine
end

section
/-! SUPPORT and the obligation of spec/45_variant_config.md about the constants (R189): the primes in order, what it
is to be the first bits after the point of a root, and the tables of R182 to R187 read beside the primes. -/

namespace Sys2Proof.Machine

open Sys2Proof

/-! ### The primes in order -/

/-- In a filtered range a number that passes stands behind the smaller numbers that pass. -/
theorem getElem?_filter_range {q : Nat → Bool} {p n : Nat} (passes : q p = true) (lt : p < n) :
    ((List.range n).filter q)[((List.range p).filter q).length]? = some p := by
  obtain ⟨k, rfl⟩ := Nat.exists_eq_add_of_lt lt
  have split : List.range (p + k + 1) = List.range p ++ p :: (List.range k).map (p + 1 + ·) := by
    rw [Nat.add_right_comm, List.range_add, List.range_succ, List.append_assoc, List.singleton_append]
  rw [split, List.filter_append, List.filter_cons_of_pos passes, List.getElem?_append_right le_rfl, Nat.sub_self,
    List.getElem?_cons_zero]

/-- The primes of R189, the first 80. -/
def firstPrimes : List Nat :=
  (List.range 410).filter fun p => decide (passesTrial p)

theorem firstPrimes_length : firstPrimes.length = 80 := by decide +kernel

/-- `firstPrimes` holds each of its primes at the number of primes below it. -/
theorem firstPrimes_getElem?_count {p t : Nat} (prime : p.Prime) (count : Nat.count Nat.Prime p = t) (lt : t < 80) :
    firstPrimes[t]? = some p := by
  have bound : Nat.count Nat.Prime 410 = 80 := (count_prime le_rfl).trans firstPrimes_length
  have below : p < 410 := Nat.lt_of_count_lt_count (by rwa [bound, count])
  have passes : passesTrial p := (prime_iff_passesTrial below).mp prime
  rw [← count, count_prime below.le]
  exact getElem?_filter_range (decide_eq_true passes) below

/-! ### The first bits after the point of a root -/

/-- `x` is the first `n` bits after the point of the `k`-th root of `p`, and the part `q` before the point is below 8,
as the square and the cube roots of R189 have it. -/
abbrev HasFraction (k n p x : Nat) : Prop :=
  ∃ q < 8, (q * 2 ^ n + x) ^ k ≤ p * 2 ^ (k * n) ∧ p * 2 ^ (k * n) < (q * 2 ^ n + x + 1) ^ k

theorem HasFraction.floor_root {k n p x : Nat} (small : x < 2 ^ n) (h : HasFraction k n p x) :
    ∃ r, r ^ k ≤ p * 2 ^ (k * n) ∧ p * 2 ^ (k * n) < (r + 1) ^ k ∧ x = r % 2 ^ n := by
  obtain ⟨q, -, lower, upper⟩ := h
  exact ⟨q * 2 ^ n + x, lower, upper, by rw [Nat.mul_add_mod', Nat.mod_eq_of_lt small]⟩

/-- The words of a table are the fractions of the `k`-th roots of the primes beside them. -/
abbrev RootTable {w : Nat} (k : Nat) (primes : List Nat) (ws : List (BitVec w)) : Prop :=
  primes.Forall₂ (fun p x => HasFraction k w p x.toNat) ws

theorem RootTable.floor_root {w k : Nat} {primes : List Nat} {ws : List (BitVec w)} (table : RootTable k primes ws) :
    ∀ {t p : Nat}, primes[t]? = some p →
      ∃ r, r ^ k ≤ p * 2 ^ (k * w) ∧ p * 2 ^ (k * w) < (r + 1) ^ k ∧ (ws.getD t 0).toNat = r % 2 ^ w := by
  induction table with
  | nil => simp
  | @cons p x _ _ fraction _ ih =>
    rintro (_ | t) p' here
    · obtain rfl : p = p' := by simpa using here
      exact fraction.floor_root x.isLt
    · exact ih here

/-! ### The tables (R182 to R187) -/

theorem roundConstants32_cubeRoots : RootTable 3 (firstPrimes.take 64) roundConstants32 := by decide +kernel

theorem roundConstants64_cubeRoots : RootTable 3 firstPrimes roundConstants64 := by decide +kernel

theorem initialHash256_squareRoots : RootTable 2 (firstPrimes.take 8) initialHash256.toList := by decide +kernel

theorem initialHash512_squareRoots : RootTable 2 (firstPrimes.take 8) initialHash512.toList := by decide +kernel

theorem initialHash384_squareRoots : RootTable 2 ((firstPrimes.drop 8).take 8) initialHash384.toList := by
  decide +kernel

/-- Settles O7: a prime stands in `firstPrimes` at the number of primes below it, and each table is checked beside that
list, word by word. -/
theorem constantsAreFractionalParts : Obligations.ConstantsAreFractionalParts := by
  unfold Obligations.ConstantsAreFractionalParts
  refine ⟨fun v hv p t prime count ht => ?round32, fun v hv p t prime count ht => ?round64,
    fun p t prime count ht => ?initial, fun p t prime count ht => ?initial384, by decide⟩
  case round32 =>
    have here := firstPrimes_getElem?_count prime count (by omega)
    rw [← List.getElem?_take_of_lt ht] at here
    obtain rfl | rfl := List.mem_pair.mp hv <;> exact roundConstants32_cubeRoots.floor_root here
  case round64 =>
    have here := firstPrimes_getElem?_count prime count ht
    obtain rfl | rfl := List.mem_pair.mp hv <;> exact roundConstants64_cubeRoots.floor_root here
  case initial =>
    have here := firstPrimes_getElem?_count prime count (by omega)
    rw [← List.getElem?_take_of_lt ht] at here
    exact ⟨initialHash256_squareRoots.floor_root here, initialHash512_squareRoots.floor_root here⟩
  case initial384 =>
    have here := firstPrimes_getElem?_count prime count (by omega)
    rw [Nat.add_comm, ← List.getElem?_drop, ← List.getElem?_take_of_lt ht] at here
    exact initialHash384_squareRoots.floor_root here

end Sys2Proof.Machine
end

section
/-! SUPPORT and the obligations of spec/60_exceptions.md: the status of every command word (R205), what an error leaves
(R201, R202, R207), and the two events that stop the step (R230, R233). -/

namespace Sys2Proof.Machine

open Sys2Proof

/-! ### The status of a command word (R205) -/

/-- The code of `op` for INIT (R72) belongs to no other instruction. -/
theorem encode_op_eq_one_iff {i : Instr} : (encode i).toNat / 2 ^ 14 = 1 ↔ ∃ v, i = .init v := by
  cases i with
  | init v =>
    have lt := v.code.isLt
    rw [encode_init_toNat]
    exact iff_of_true (by omega) ⟨v, rfl⟩
  | append b =>
    have lt := b.isLt
    rw [encode_append_toNat]
    exact iff_of_false (by omega) (by simp)
  | append0 => exact iff_of_false (by decide) (by simp)
  | finalize => exact iff_of_false (by decide) (by simp)
  | reservedOp00 x =>
    have lt := x.isLt
    rw [encode_reservedOp00_toNat]
    exact iff_of_false (by omega) (by simp)

/-- The response to a command is OK for INIT, and for the other three depends on the phase alone. -/
theorem exec_status {i : Instr} (command : i.wellFormed = true) (s : State) :
    ∃ t r, exec i s = .next t ∧ t.response = some r ∧
      ((∃ v, i = .init v) → r.status = .ok) ∧
      ((∀ v, i ≠ .init v) → r.status = if s.phase = .accepting then .ok else .invalidState) := by
  obtain ⟨t, run, effect⟩ := exec_cases i s
  obtain ⟨v, rfl, rfl⟩ | ⟨b, -, phase, rfl⟩ | ⟨-, phase, rfl⟩ | ⟨-, phase, rfl⟩ | ⟨notInit, -, phase, rfl⟩ |
    ⟨reserved, -⟩ := effect
  · exact ⟨_, _, run, rfl, fun _ => rfl, fun notInit => absurd rfl (notInit v)⟩
  · exact ⟨_, _, run, rfl, fun _ => rfl, fun _ => (if_pos phase).symm⟩
  · exact ⟨_, _, run, rfl, fun _ => rfl, fun _ => (if_pos phase).symm⟩
  · exact ⟨_, _, run, rfl, fun _ => rfl, fun _ => (if_pos phase).symm⟩
  · exact ⟨_, _, run, rfl, fun ⟨v, init⟩ => absurd init (notInit v), fun _ => (if_neg phase).symm⟩
  · exact absurd command (by simp [reserved])

/-- Settles O31: an illegal word fails before any phase is looked at; a legal one is the encoding of a command. -/
theorem statusDependsOnWordAndPhase : Obligations.StatusDependsOnWordAndPhase := by
  unfold Obligations.StatusDependsOnWordAndPhase
  intro cw s
  by_cases illegal : legal cw = false
  · exact ⟨_, _, runWord_not_legal s illegal, rfl, (if_pos illegal).symm⟩
  · obtain ⟨i, command, rfl⟩ := legal_iff_encode.mp (Bool.eq_true_of_not_eq_false illegal)
    obtain ⟨t, r, run, response, ofInit, ofOther⟩ := exec_status command s
    refine ⟨t, r, (runWord_instr s (decode_encode i)).trans run, response, ?_⟩
    rw [if_neg illegal]
    by_cases op : (encode i).toNat / 2 ^ 14 = 1
    · rw [if_pos op]
      exact ofInit (encode_op_eq_one_iff.mp op)
    · rw [if_neg op]
      exact ofOther fun v init => op (encode_op_eq_one_iff.mpr ⟨v, init⟩)

/-! ### What an error leaves (R201, R202, R206, R207) -/

/-- An error response comes only from a word that fails: a command that runs answers OK. -/
theorem WordEffect.eq_raiseError {cw : CommandWord} {s t : State} {r : Response} (effect : WordEffect cw s t)
    (response : t.response = some r) (isError : r.status ≠ .ok) : t = s.raiseError r.status := by
  cases effect with
  | fails => cases response; rfl
  | init | append | append0 | finalize => cases response; exact absurd rfl isError

/-- Settles O33: the only effect with an error response writes that response alone. -/
theorem errorsChangeNothing : Obligations.ErrorsChangeNothing := by
  unfold Obligations.ErrorsChangeNothing
  exact fun cw s t r run response isError => (runWord_effect run).eq_raiseError response isError

/-- A command word does not read the response of the one before it. -/
theorem runWord_setResponse (cw : CommandWord) (s : State) (r : Option Response) :
    runWord cw (s.setResponse r) = runWord cw s := by
  cases word : decode cw with
  | instr i => rw [runWord_instr _ word, runWord_instr _ word, exec_setResponse]
  | illegal c => exact (runWord_illegal _ word).trans (runWord_illegal s word).symm

/-- Settles O34: a failed word differs from no word only in the response, which the next word does not read. -/
theorem errorsLeaveNoTrace : Obligations.ErrorsLeaveNoTrace := by
  unfold Obligations.ErrorsLeaveNoTrace
  intro bad cw s t r run response isError
  rw [(runWord_effect run).eq_raiseError response isError]
  exact runWord_setResponse cw s _

/-! ### The events that stop the step (R230, R233) -/

theorem step_event {s : State} {ev : HostEvent} {rest : List HostEvent} (h : s.input = ev :: rest) :
    step s = runEvent ev (s.setInput rest) := by
  rw [step, h]

/-- Settles O38: of what one step can do, only the two broken contracts answer no next state. -/
theorem engineStopsOnlyOnABrokenContract : Obligations.EngineStopsOnlyOnABrokenContract := by
  unfold Obligations.EngineStopsOnlyOnABrokenContract
  refine fun s => ⟨fun notTogether notMidCommand => ?_, fun a b rest => step_event, fun cw rest => step_event⟩
  obtain ⟨-, waits⟩ | ⟨cw, rest, -, takes⟩ | ⟨rest, -, resets⟩ | ⟨a, b, rest, together, -⟩ |
    ⟨cw, rest, midCommand, -⟩ := step_cases s
  · exact ⟨s, waits⟩
  · obtain ⟨t, run⟩ := runWord_next cw (s.setInput rest)
    exact ⟨t, takes.trans run⟩
  · exact ⟨_, resets⟩
  · exact absurd together (notTogether a b rest)
  · exact absurd midCommand (notMidCommand cw rest)

end Sys2Proof.Machine
end
